-- ==== Sys2Proof/Word.lean ====
section
/-! DEFINITION. The word types of the BCD digit-group core: the storage word (one group) and the command word. -/

namespace Sys2Proof

/-- One storage word (a group, 00_scope.md R3). `W` is 8, 16, 32 or 64, so every group fits a 64-bit container;
the bits at and above `W` are 0 in every well-formed state (`Machine.DReg.wf`). The container is the model's
(DESIGN CHOICE, log 2; safe). The same container carries `cmd_wdata` (`W` bits) and `rsp_data`
(`RW = max(W, 16)` bits, R8). -/
abbrev Word := BitVec 64

/-- One command word (30_encoding.md R68: every command is one 32-bit word). -/
abbrev CmdWord := BitVec 32

end Sys2Proof
end

