-- ==== Sys2Proof/Config.lean ====
section
/-! DEFINITION. The elaboration parameters of the hardware (00_scope.md section 5), fixed for one machine. -/

namespace Sys2Proof

/-- The admitted widths of one storage word (00_scope.md R3: `W` in 8, 16, 32, 64; any other width is not this
hardware, 93_implementation_defined.md V9). -/
inductive WordWidth where
  | w8
  | w16
  | w32
  | w64
  deriving DecidableEq, Repr

/-- A register number (00_scope.md R7, 30_encoding.md R72): every value of the 3-bit field names a register. -/
abbrev RegNum := Fin 8

/-- The sequence selector `q` (00_scope.md R15): `I` (value 0) the integer sequence, `F` (value 1) the fractional one. -/
inductive Seq where
  | I
  | F
  deriving DecidableEq, Repr

/-- The three open parameters (00_scope.md R3, R5; 92_eei_decisions.md, open parameters). -/
structure Config where
  /-- `W`: the width of one storage word. -/
  W : WordWidth
  /-- `ID`: the number of integer digits of every register. -/
  ID : Nat
  /-- `FD`: the number of fractional digits of every register. -/
  FD : Nat
  deriving DecidableEq, Repr

/-- The admitted ranges of the digit counts (00_scope.md R5); `W` is admitted by its type (R3). -/
abbrev Config.wf (c : Config) : Prop := 1 ≤ c.ID ∧ c.ID ≤ 32767 ∧ c.FD ≤ 32767

/-- Reference configuration CFG-A (00_scope.md section 5): `W = 8`, `ID = 3`, `FD = 2`. -/
def Config.cfgA : Config := { W := .w8, ID := 3, FD := 2 }

/-- Reference configuration CFG-B: `W = 32`, `ID = 3`, `FD = 2`. -/
def Config.cfgB : Config := { W := .w32, ID := 3, FD := 2 }

/-- Reference configuration CFG-C: `W = 8`, `ID = 5`, `FD = 3`. -/
def Config.cfgC : Config := { W := .w8, ID := 5, FD := 3 }

end Sys2Proof
end

