-- ==== Sys2Proof/Machine/Sizes.lean ====
section
/-! DEFINITION. The sizes computed from the elaboration parameters (00_scope.md R4, R6, R8, R15). -/

namespace Sys2Proof

/-- `W` in bits (R3). -/
def WordWidth.bits (w : WordWidth) : Nat :=
  match w with
  | .w8 => 8
  | .w16 => 16
  | .w32 => 32
  | .w64 => 64

/-- `ceil(a / b)`: the quotient rounded up (R13). -/
def ceilDiv (a b : Nat) : Nat := (a + (b - 1)) / b

/-- `DPG`: digits in one group, `W / 4` (R4). -/
def Config.DPG (c : Config) : Nat := c.W.bits / 4

/-- `IGN`: groups backing an integer sequence, `ceil(ID / DPG)` (R6). -/
def Config.IGN (c : Config) : Nat := ceilDiv c.ID c.DPG

/-- `FGN`: groups backing a fractional sequence, `ceil(FD / DPG)` (R6). -/
def Config.FGN (c : Config) : Nat := ceilDiv c.FD c.DPG

/-- `N`: digits of a value, `ID + FD` (R6). -/
def Config.N (c : Config) : Nat := c.ID + c.FD

/-- `RW`: the width of the response data, `max(W, 16)` (R8). -/
def Config.RW (c : Config) : Nat := max c.W.bits 16

/-- `cnt(q)`: the digit count of a sequence (R15). -/
def Config.cnt (c : Config) (q : Seq) : Nat :=
  match q with
  | .I => c.ID
  | .F => c.FD

/-- `gcnt(q)`: the group count of a sequence (R15). -/
def Config.gcnt (c : Config) (q : Seq) : Nat :=
  match q with
  | .I => c.IGN
  | .F => c.FGN

end Sys2Proof
end

