-- ==== Sys2Proof/Machine/State.lean ====
section
/-! DEFINITION. The state of the block (10_state.md), its command port at the level of the transaction
(30_encoding.md R65 to R67), its reset value (70_reset_and_hazards.md R215, R216), and the reasons a step can stop. -/

namespace Sys2Proof.Machine

/-- The status codes of 60_exceptions.md R190. `widthMismatch` is reserved and never produced (R9, R191). -/
inductive Status where
  | ok
  | overflow
  | underflow
  | digitOutOfRange
  | indexOutOfRange
  | widthMismatch
  | divisionUnspecified
  | illegalCommand
  deriving DecidableEq, Repr

/-- One decimal register (R20 to R23): `{ integer_sequence, fractional_sequence, sign }`. -/
structure DReg where
  /-- `D[r].ig[0 .. IGN-1]`, group 0 first (R21). -/
  ig : List Word
  /-- `D[r].fg[0 .. FGN-1]`, group 0 first (R22). -/
  fg : List Word
  /-- The sign flag: `false` (0) non-negative, `true` (1) negative (R23). -/
  sign : Bool
  deriving DecidableEq, Repr

/-- The default-constructed value: all digits zero, non-negative (R31). -/
def DReg.zero (c : Config) : DReg :=
  { ig := List.replicate c.IGN 0#64, fg := List.replicate c.FGN 0#64, sign := false }

/-- What the response port carries while `rsp_valid` is high (R65, R67). -/
structure Response where
  /-- `rsp_status`. -/
  status : Status
  /-- `rsp_data`, `RW` bits in the 64-bit container. -/
  data : Word
  deriving DecidableEq, Repr

/-- What the host does at the port, one item for each transaction (R66; log 3). -/
inductive HostAction where
  /-- The host offers a command that the block accepts and answers: `cmd` and `cmd_wdata` at the accepting edge. -/
  | command (cmd : CmdWord) (wdata : Word)
  /-- `rst` is high at a clock edge with no command in progress (R215), whatever else the host drives. -/
  | reset
  /-- The block accepts a command and `rst` rises before its response (R217). -/
  | abandoned (cmd : CmdWord) (wdata : Word)
  deriving DecidableEq, Repr

/-- The machine. The architectural state is `regs` alone (10_state.md, opening paragraph); the other fields are the
elaboration parameters, the mark that reset has been applied, and the command port. -/
structure State where
  /-- The elaboration parameters `W`, `ID`, `FD` (00_scope.md R3, R5): constant, no step changes them. -/
  cfg : Config
  /-- Whether reset has been applied since power-on (R32, R218). -/
  hasReset : Bool
  /-- `D[0]` to `D[7]` (R20). -/
  regs : Vector DReg 8
  /-- `cmd_wdata` as sampled at the edge that accepted the last command (R66, R75); the low `W` bits are wired. -/
  wdata : Word
  /-- What the host does from here on, the next action first (R57, R63: one ordered stream). -/
  host : List HostAction
  /-- The response port after the last step: `none` while `rsp_valid` is low (R66, R67). -/
  rsp : Option Response
  deriving DecidableEq, Repr

/-- The reset state of a machine with parameters `c` (R31, R215, R216): every group 0, every sign flag 0, no response,
no command in progress. `wdata` is an input pin, not a register: its value here is the model's (log 5). -/
def State.resetFor (c : Config) : State :=
  { cfg := c, hasReset := true, regs := Vector.replicate 8 (DReg.zero c), wdata := 0#64, host := [], rsp := none }

/-- The machine right after reset, in the reference configuration CFG-A (the choice of one admitted configuration is
the model's: DESIGN CHOICE, log 1). -/
def State.reset : State := State.resetFor Config.cfgA

/-- The reasons for which the machine stops with a fault: none. "None halts the block" (00_scope.md R12,
60_exceptions.md R195): every error of the spec is a status in a response, after which the block takes the next
command. An empty type is the safe choice: nothing can be claimed to fault. -/
inductive Fault where
  deriving DecidableEq, Repr

/-- The reasons for which a step has no meaning. -/
inductive Refusal where
  /-- Raised by `exec` for an instruction that has no meaning yet; no arm raises it in this model. Safe. -/
  | notModelled (mnemonic : String)
  /-- Raised by the port for a command issued before the first reset: "A model must give no meaning to a command
  issued before reset (refuse it)" (10_state.md R32). Safe. -/
  | commandBeforeReset
  deriving DecidableEq, Repr

/-- What an instruction or a step answers. -/
abbrev Result := Host.Outcome State Fault Refusal

end Sys2Proof.Machine
end

