-- ==== Sys2Proof/Machine/Ops.lean ====
section
/-! DEFINITION. The named operations: the bit-field extract and insert, the store primitives of 00_scope.md R16, the
response primitives of R17, and reset. -/

namespace Sys2Proof.Machine

/-! ## Bit fields of a word (20_memory.md R41, R44, R45) -/

/-- Extract: the 4-bit field at offset `o` of a word, `(w >> (4*o)) & 0xF` (R44). -/
def extractField (w : Word) (o : Nat) : Nat := ((w >>> (4 * o)) &&& 0xF#64).toNat

/-- Insert: `(w & ~(0xF << (4*o))) | (v << (4*o))` (R45). -/
def insertField (w : Word) (o v : Nat) : Word :=
  (w &&& ~~~(0xF#64 <<< (4 * o))) ||| (BitVec.ofNat 64 v <<< (4 * o))

/-- The low `W` bits of a container: what `W` wires carry (R65, R75). -/
def wireWord (c : Config) (w : Word) : Word := BitVec.ofNat 64 (w.toNat % 2 ^ c.W.bits)

/-! ## The address decoder (R43) -/

/-- `g = p / DPG`. -/
def groupOf (c : Config) (p : Nat) : Nat := p / c.DPG

/-- `o = p % DPG`. -/
def offsetOf (c : Config) (p : Nat) : Nat := p % c.DPG

/-! ## One register: groups and digits -/

/-- `D[r].seq(q)` (00_scope.md R15). -/
def DReg.seq (d : DReg) (q : Seq) : List Word :=
  match q with
  | .I => d.ig
  | .F => d.fg

/-- Replace one sequence; the other sequence and the sign flag stay. -/
def DReg.setSeq (d : DReg) (q : Seq) (ws : List Word) : DReg :=
  match q with
  | .I => { d with ig := ws }
  | .F => { d with fg := ws }

/-- `D[r].seq(q)[g]`; callers hold `g < gcnt(q)`. -/
def DReg.group (d : DReg) (q : Seq) (g : Nat) : Word := (d.seq q).getD g 0#64

/-- `D[r].seq(q)[g] <- w`; callers hold `g < gcnt(q)`. -/
def DReg.setGroup (d : DReg) (q : Seq) (g : Nat) (w : Word) : DReg := d.setSeq q ((d.seq q).set g w)

/-- The digit at position `p` (R44); callers hold `p < cnt(q)`. -/
def DReg.digit (c : Config) (d : DReg) (q : Seq) (p : Nat) : Nat :=
  extractField (d.group q (groupOf c p)) (offsetOf c p)

/-- Replace the digit at position `p` (R45); callers hold `p < cnt(q)` and `v <= 9`. -/
def DReg.setDigit (c : Config) (d : DReg) (q : Seq) (p v : Nat) : DReg :=
  d.setGroup q (groupOf c p) (insertField (d.group q (groupOf c p)) (offsetOf c p) v)

/-- The combined digit `k` (R47): fractional positions first, then integer positions. -/
def DReg.comb (c : Config) (d : DReg) (k : Nat) : Nat :=
  if k < c.FD then d.digit c .F k else d.digit c .I (k - c.FD)

/-- Replace the combined digit `k` (R47). -/
def DReg.setComb (c : Config) (d : DReg) (k v : Nat) : DReg :=
  if k < c.FD then d.setDigit c .F k v else d.setDigit c .I (k - c.FD) v

/-- Replace the combined digits from `k` up by the values of a list, one DigitWrite after another. -/
def DReg.setCombs (c : Config) (d : DReg) (k : Nat) (vs : List Nat) : DReg :=
  match vs with
  | [] => d
  | v :: rest => DReg.setCombs c (d.setComb c k v) (k + 1) rest

/-- The combined digits `c(r, 0) .. c(r, N-1)`, least significant first. -/
def DReg.digits (c : Config) (d : DReg) : List Nat := (List.range c.N).map (d.comb c)

/-! ## The register file (10_state.md R20, R26) -/

/-- `D[r]`. -/
def State.reg (s : State) (r : RegNum) : DReg := s.regs[r.val]

/-- `D[r] <- d`; no other register changes (R26). -/
def State.setReg (s : State) (r : RegNum) (d : DReg) : State := { s with regs := s.regs.set r.val d }

/-! ## Store primitives (00_scope.md R16) -/

/-- `GroupRead(r, q, g)` (20_memory.md R52). -/
def groupRead (s : State) (r : RegNum) (q : Seq) (g : Nat) : Word := (s.reg r).group q g

/-- `GroupWrite(r, q, g, w)` (R52). -/
def groupWrite (s : State) (r : RegNum) (q : Seq) (g : Nat) (w : Word) : State :=
  s.setReg r ((s.reg r).setGroup q g w)

/-- `DigitRead(r, q, p)` (R44). -/
def digitRead (s : State) (r : RegNum) (q : Seq) (p : Nat) : Nat := (s.reg r).digit s.cfg q p

/-- `DigitWrite(r, q, p, v)` (R45). -/
def digitWrite (s : State) (r : RegNum) (q : Seq) (p v : Nat) : State :=
  s.setReg r ((s.reg r).setDigit s.cfg q p v)

/-- `c(r, k)` (R47). -/
def combRead (s : State) (r : RegNum) (k : Nat) : Nat := (s.reg r).comb s.cfg k

/-- `D[r].sign <- v`. -/
def signWrite (s : State) (r : RegNum) (v : Bool) : State := s.setReg r { s.reg r with sign := v }

/-- The commit of ADD, SUB and MUL (42_add_sub.md R140): write the `N` digits of the result buffer, fractional then
integer, and the sign flag. Spare nibbles are not written. -/
def commitValue (s : State) (rd : RegNum) (digits : List Nat) (sgn : Bool) : State :=
  s.setReg rd { (s.reg rd).setCombs s.cfg 0 digits with sign := sgn }

/-! ## Responses (00_scope.md R17, 30_encoding.md R67, R90) -/

/-- The number on `rsp_status` (60_exceptions.md R190). -/
def Status.code (st : Status) : BitVec 3 :=
  match st with
  | .ok => 0#3
  | .overflow => 1#3
  | .underflow => 2#3
  | .digitOutOfRange => 3#3
  | .indexOutOfRange => 4#3
  | .widthMismatch => 5#3
  | .divisionUnspecified => 6#3
  | .illegalCommand => 7#3

/-- `respond(s, d)`: end the command with a status and response data (R17). -/
def respond (st : Status) (data : Word) (s : State) : Result := .next { s with rsp := some ⟨st, data⟩ }

/-- The Ok response of a command with no result: data 0 (R67, R90). -/
def respondOk (s : State) : Result := respond .ok 0#64 s

/-- The Ok response of a command whose result is a number, `zext_RW` (R90). -/
def respondNat (n : Nat) (s : State) : Result := respond .ok (BitVec.ofNat 64 n) s

/-- `raise X`: TAKING AN EXCEPTION on this hardware (00_scope.md R17, 60_exceptions.md R192, R195, R196): the response
carries the status and data 0; nothing is saved, no mode changes, control goes nowhere, no state is written. There is
no return from an exception (R198): the next command simply follows. -/
def raise (st : Status) (s : State) : Result := respond st 0#64 s

/-- A command word that selects no row: `IllegalCommand`, data 0, no state change (30_encoding.md R78). -/
def illegalCommand (s : State) : Result := raise .illegalCommand s

/-! ## Reset (70_reset_and_hazards.md R215, R217) -/

/-- Apply reset: the reset state of this machine. The parameters are not state (R216) and the host's further actions
are the host's. -/
def applyReset (s : State) : State := { State.resetFor s.cfg with host := s.host }

end Sys2Proof.Machine
end

