-- ==== Sys2Proof/Machine/Datapath.lean ====
section
/-! DEFINITION. The digit-serial datapath: adder, subtractor, multiplier and comparator. The working storage of
10_state.md R30 (carry, borrow, accumulator, scratch partial product, running sum, result buffer) is local to these
functions and initialised before use, as R30 allows (log 7). Digit lists run from the least significant digit up. -/

namespace Sys2Proof.Machine

/-! ## Adder and subtractor (42_add_sub.md R140, R141) -/

/-- The addition loop: the result digits and the carry out (R140). -/
def addChain (as bs : List Nat) (carry : Nat) : List Nat × Nat :=
  match as, bs with
  | a :: as', b :: bs' =>
    let sum := a + b + carry
    let rest := addChain as' bs' (sum / 10)
    (sum % 10 :: rest.1, rest.2)
  | _, _ => ([], carry)

/-- The subtraction loop: the result digits and the borrow out (R141). `diff` uses the borrow of the digit before, the
written digit the new borrow. -/
def subChain (as bs : List Nat) (borrow : Nat) : List Nat × Nat :=
  match as, bs with
  | a :: as', b :: bs' =>
    let diff := b + borrow
    let borrow' := if a < diff then 1 else 0
    let digit := a + (if borrow' = 1 then 10 else 0) - diff
    let rest := subChain as' bs' borrow'
    (digit :: rest.1, rest.2)
  | _, _ => ([], borrow)

/-! ## Multiplier (43_multiply.md R160) -/

/-- The working storage of one partial product: the running carry, the scratch `P` and the overflow mark. -/
structure MulRow where
  carry : Nat
  P : List Nat
  ovf : Bool
  deriving DecidableEq, Repr

/-- Put a digit at combined position `i + j - FD`: below 0 it is dropped, inside it is stored, and at or above `N` a
nonzero digit is Overflow (R160). `pos` is `i + j`. -/
def MulRow.place (c : Config) (row : MulRow) (pos d : Nat) : MulRow :=
  if pos < c.FD then row
  else if pos - c.FD < c.N then { row with P := row.P.set (pos - c.FD) d }
  else { row with ovf := row.ovf || d != 0 }

/-- The step of the inner loop for digit `j` of the right operand: `dp = a[i] * b[j] + carry`, its low digit to its
place, the rest carried (R160). -/
def mulDigit (c : Config) (i ai j bj : Nat) (row : MulRow) : MulRow :=
  let dp := ai * bj + row.carry
  { row with carry := dp / 10 }.place c (i + j) (dp % 10)

/-- The inner loop over the right operand's digits from index `j` up (R160). -/
def mulDigits (c : Config) (i ai j : Nat) (bs : List Nat) (row : MulRow) : MulRow :=
  match bs with
  | [] => row
  | b :: bs' => mulDigits c i ai (j + 1) bs' (mulDigit c i ai j b row)

/-- The partial product of digit `i`: the inner loop from a cleared scratch, then the carry left after `j = N-1` at
position `i + N - FD` (R160). -/
def partialProduct (c : Config) (i ai : Nat) (bs : List Nat) : MulRow :=
  let row := mulDigits c i ai 0 bs { carry := 0, P := List.replicate c.N 0, ovf := false }
  if row.carry = 0 then row else row.place c (i + c.N) row.carry

/-- The outer loop over the left operand's digits from index `i` up: accumulate each partial product into the running
sum `S` with the addition loop; a carry out is Overflow (R160). -/
def mulAccumulate (c : Config) (i : Nat) (as bs : List Nat) (S : List Nat) (ovf : Bool) : List Nat × Bool :=
  match as with
  | [] => (S, ovf)
  | a :: as' =>
    let row := partialProduct c i a bs
    let acc := addChain S row.P 0
    mulAccumulate c (i + 1) as' bs acc.1 (ovf || row.ovf || acc.2 != 0)

/-- The multiplier: the `N` digits of the running sum and the overflow mark (R160). -/
def mulChain (c : Config) (as bs : List Nat) : List Nat × Bool :=
  mulAccumulate c 0 as bs (List.replicate c.N 0) false

/-! ## Comparator (44_compare_divide.md R175) -/

/-- The magnitude ordering: the first non-equal pair from combined index `n - 1` down decides (R175). -/
def magOrdering (a b : Nat → Nat) (n : Nat) : Ordering :=
  match n with
  | 0 => .eq
  | k + 1 => if a k = b k then magOrdering a b k else if b k < a k then .gt else .lt

end Sys2Proof.Machine
end

