-- ==== Sys2Proof/Machine/Flags.lean ====
section
/-! DEFINITION. The sign flag, the only flag that is state (10_state.md R29), and the ordering code of CMP. -/

namespace Sys2Proof.Machine

/-- The sign flag of a register (R23). -/
def signRead (s : State) (r : RegNum) : Bool := (s.reg r).sign

/-- The flag ADD, SUB and MUL write: a copy of the left operand's (42_add_sub.md R140, 00_scope.md R10). -/
def copiedSign (s : State) (ra : RegNum) : Bool := signRead s ra

/-- `zext_RW(D[r].sign)` as a number (41_decimal_access.md R124). -/
def signNat (sgn : Bool) : Nat := if sgn then 1 else 0

/-- Whether every digit of a register is 0 (44_compare_divide.md R175: `za`, `zb`). -/
def isZero (s : State) (r : RegNum) : Bool := (s.reg r).digits s.cfg |>.all (· == 0)

/-- Effectively negative: sign set and magnitude nonzero (R175: `na`, `nb`; a negative zero is not negative). -/
def effectivelyNegative (s : State) (r : RegNum) : Bool := signRead s r && !isZero s r

/-- The ordering code on `rsp_data` (R90, R175): 0 equal, 1 left less than right, 2 left greater than right. -/
def orderingCode (o : Ordering) : Nat :=
  match o with
  | .eq => 0
  | .lt => 1
  | .gt => 2

/-- The sign-aware ordering from the two effective signs and the magnitude ordering `m` (R175). -/
def signedOrdering (na nb : Bool) (m : Ordering) : Ordering :=
  if na && !nb then .lt
  else if nb && !na then .gt
  else if na && nb then m.swap
  else m

/-- The six relations a host derives from the CMP code `k` (30_encoding.md R93). -/
inductive Relation where
  | equal
  | notEqual
  | less
  | lessEqual
  | greater
  | greaterEqual
  deriving DecidableEq, Repr

/-- Whether a relation holds for the CMP code `k` (R93). -/
def Relation.holds (rel : Relation) (k : Nat) : Bool :=
  match rel with
  | .equal => k == 0
  | .notEqual => k != 0
  | .less => k == 1
  | .lessEqual => k != 2
  | .greater => k == 2
  | .greaterEqual => k != 1

end Sys2Proof.Machine
end

