-- ==== Sys2Proof/Machine/AddSub.lean ====
section
/-! DEFINITION. The adder/subtractor commands (42_add_sub.md): ADD, SUB. -/

namespace Sys2Proof.Machine

/-- ADD (R140): magnitudes are added; a carry out of the top digit is Overflow and nothing is written. -/
def execAdd (rd ra rb : RegNum) (s : State) : Result :=
  let t := addChain ((s.reg ra).digits s.cfg) ((s.reg rb).digits s.cfg) 0
  if t.2 ≠ 0 then raise .overflow s
  else respondOk (commitValue s rd t.1 (copiedSign s ra))

/-- SUB (R141): magnitudes are subtracted; a borrow out of the top digit is Underflow and nothing is written. -/
def execSub (rd ra rb : RegNum) (s : State) : Result :=
  let t := subChain ((s.reg ra).digits s.cfg) ((s.reg rb).digits s.cfg) 0
  if t.2 ≠ 0 then raise .underflow s
  else respondOk (commitValue s rd t.1 (copiedSign s ra))

end Sys2Proof.Machine
end

