-- ==== Sys2Proof/Machine/CompareDivide.lean ====
section
/-! DEFINITION. The comparator and the division command (44_compare_divide.md): CMP, DIV. -/

namespace Sys2Proof.Machine

/-- CMP (R175). -/
def execCmp (ra rb : RegNum) (s : State) : Result :=
  let m := magOrdering (combRead s ra) (combRead s rb) s.cfg.N
  respondNat (orderingCode (signedOrdering (effectivelyNegative s ra) (effectivelyNegative s rb) m)) s

/-- DIV (R178): always `DivisionUnspecified`; the operands are decoded and not read. -/
def execDiv (_rd _ra _rb : RegNum) (s : State) : Result := raise .divisionUnspecified s

end Sys2Proof.Machine
end

