-- ==== Sys2Proof/Machine/Operands.lean ====
section
/-! DEFINITION. The operand forms: raw positions and group indices, the signed digit index, and the write data. -/

namespace Sys2Proof.Machine

/-- The write data LDG uses: the `W` bits of `cmd_wdata` sampled with the command (30_encoding.md R66, R75). -/
def writeData (s : State) : Word := wireWord s.cfg s.wdata

/-- A signed digit index (41_decimal_access.md R122): a non-negative index is the integer position, a negative one the
fractional position `FD + sidx`; an index outside `-FD .. ID-1` addresses nothing (20_memory.md R51, never wrapped). -/
def signedPosition (c : Config) (sidx : Int) : Option (Seq × Nat) :=
  if 0 ≤ sidx then
    if (c.ID : Int) ≤ sidx then none else some (.I, sidx.toNat)
  else
    if sidx < -(c.FD : Int) then none else some (.F, ((c.FD : Int) + sidx).toNat)

/-- The verdict of a digit write on its position and value, address before data (40_digit_group_store.md R101,
60_exceptions.md R194): `none` when both are in range. -/
def digitWriteError (c : Config) (q : Seq) (p v : Nat) : Option Status :=
  if c.cnt q ≤ p then some .indexOutOfRange
  else if 9 < v then some .digitOutOfRange
  else none

/-- Whether some field of a group word is above 9 (R103, second check). -/
def hasBadDigit (c : Config) (w : Word) : Bool :=
  (List.range c.DPG).any fun o => decide (9 < extractField w o)

/-- Whether some field of a group word at a spare position is not 0 (R103, third check; 20_memory.md R48). -/
def hasNonzeroSpare (c : Config) (q : Seq) (g : Nat) (w : Word) : Bool :=
  (List.range c.DPG).any fun o => decide (c.cnt q ≤ g * c.DPG + o) && decide (extractField w o ≠ 0)

/-- The verdict of LDG on its group index and write data, in the order checked (R103, R194). -/
def groupWriteError (c : Config) (q : Seq) (g : Nat) (w : Word) : Option Status :=
  if c.gcnt q ≤ g then some .indexOutOfRange
  else if hasBadDigit c w then some .digitOutOfRange
  else if hasNonzeroSpare c q g w then some .indexOutOfRange
  else none

end Sys2Proof.Machine
end

