-- ==== Sys2Proof/Machine/DecimalAccess.lean ====
section
/-! DEFINITION. The decimal register commands (41_decimal_access.md): CLR, MOV, IGET, ISET, SGET, SSET, DCNT. -/

namespace Sys2Proof.Machine

/-- CLR (R120): the register takes its reset value. -/
def execClr (r : RegNum) (s : State) : Result := respondOk (s.setReg r (DReg.zero s.cfg))

/-- MOV (R121): digits and sign flag, all of `D[ra]`. -/
def execMov (rd ra : RegNum) (s : State) : Result := respondOk (s.setReg rd (s.reg ra))

/-- IGET (R122): no padding on this port (20_memory.md R51). -/
def execIget (r : RegNum) (sidx : Int) (s : State) : Result :=
  match signedPosition s.cfg sidx with
  | none => raise .indexOutOfRange s
  | some (q, p) => respondNat (digitRead s r q p) s

/-- ISET (R123): the address is checked before the value. -/
def execIset (r : RegNum) (sidx : Int) (v : Nat) (s : State) : Result :=
  match signedPosition s.cfg sidx with
  | none => raise .indexOutOfRange s
  | some (q, p) => if 9 < v then raise .digitOutOfRange s else respondOk (digitWrite s r q p v)

/-- SGET (R124). -/
def execSget (r : RegNum) (s : State) : Result := respondNat (signNat (signRead s r)) s

/-- SSET (R125). -/
def execSset (r : RegNum) (sgn : Bool) (s : State) : Result := respondOk (signWrite s r sgn)

/-- DCNT (R126). -/
def execDcnt (q : Seq) (s : State) : Result := respondNat (s.cfg.cnt q) s

end Sys2Proof.Machine
end

