-- ==== Sys2Proof/Machine/DigitGroupStore.lean ====
section
/-! DEFINITION. The DigitGroupStore commands (40_digit_group_store.md): DGET, DSET, GCNT, LDG, RDG. -/

namespace Sys2Proof.Machine

/-- DGET (R100): a fractional position past the end reads 0 with status Ok, an integer one is `IndexOutOfRange`
(20_memory.md R49). -/
def execDget (r : RegNum) (q : Seq) (p : Nat) (s : State) : Result :=
  if p < s.cfg.cnt q then respondNat (digitRead s r q p) s
  else if q = .F then respondNat 0 s
  else raise .indexOutOfRange s

/-- DSET (R101). -/
def execDset (r : RegNum) (q : Seq) (p v : Nat) (s : State) : Result :=
  match digitWriteError s.cfg q p v with
  | some e => raise e s
  | none => respondOk (digitWrite s r q p v)

/-- GCNT (R102). -/
def execGcnt (q : Seq) (s : State) : Result := respondNat (s.cfg.gcnt q) s

/-- LDG (R103). -/
def execLdg (r : RegNum) (q : Seq) (g : Nat) (s : State) : Result :=
  match groupWriteError s.cfg q g (writeData s) with
  | some e => raise e s
  | none => respondOk (groupWrite s r q g (writeData s))

/-- RDG (R104): unlike DGET there is no padding for the fractional sequence. -/
def execRdg (r : RegNum) (q : Seq) (g : Nat) (s : State) : Result :=
  if s.cfg.gcnt q ≤ g then raise .indexOutOfRange s
  else respond .ok (groupRead s r q g) s

end Sys2Proof.Machine
end

