-- ==== Sys2Proof/Machine/Multiply.lean ====
section
/-! DEFINITION. The multiplier command (43_multiply.md): MUL. -/

namespace Sys2Proof.Machine

/-- MUL (R160): shifted partial products on magnitudes; on Overflow nothing is written. -/
def execMul (rd ra rb : RegNum) (s : State) : Result :=
  let t := mulChain s.cfg ((s.reg ra).digits s.cfg) ((s.reg rb).digits s.cfg)
  if t.2 then raise .overflow s
  else respondOk (commitValue s rd t.1 (copiedSign s ra))

end Sys2Proof.Machine
end

