-- ==== Sys2Proof/Syntax.lean ====
section
/-! DEFINITION. The commands of the block: one constructor per row of the opcode map (30_encoding.md R77). -/

namespace Sys2Proof

/-- The 17 commands. Operands are the numbers the rules speak of (30_encoding.md R73, R74: positions, group indices
and digit values are unsigned, the index of IGET and ISET is signed); `Instr.WellFormed` says that they fit their
fields. The write data of LDG is outside the command word (R75): the machine samples it at the port. -/
inductive Instr where
  /-- `DGET Dr, q, p` (R100). -/
  | dget (r : RegNum) (q : Seq) (p : Nat)
  /-- `DSET Dr, q, p, v` (R101). -/
  | dset (r : RegNum) (q : Seq) (p : Nat) (v : Nat)
  /-- `GCNT q` (R102). -/
  | gcnt (q : Seq)
  /-- `LDG Dr, q, g` with the write data on `cmd_wdata` (R103). -/
  | ldg (r : RegNum) (q : Seq) (g : Nat)
  /-- `RDG Dr, q, g` (R104). -/
  | rdg (r : RegNum) (q : Seq) (g : Nat)
  /-- `CLR Dr` (R120). -/
  | clr (r : RegNum)
  /-- `MOV Dd, Da` (R121). -/
  | mov (rd ra : RegNum)
  /-- `IGET Dr, sidx` (R122). -/
  | iget (r : RegNum) (sidx : Int)
  /-- `ISET Dr, sidx, v` (R123). -/
  | iset (r : RegNum) (sidx : Int) (v : Nat)
  /-- `SGET Dr` (R124). -/
  | sget (r : RegNum)
  /-- `SSET Dr, s` (R125); `true` is the sign bit 1. -/
  | sset (r : RegNum) (sgn : Bool)
  /-- `DCNT q` (R126). -/
  | dcnt (q : Seq)
  /-- `ADD Dd, Da, Db` (R140). -/
  | add (rd ra rb : RegNum)
  /-- `SUB Dd, Da, Db` (R141). -/
  | sub (rd ra rb : RegNum)
  /-- `MUL Dd, Da, Db` (R160). -/
  | mul (rd ra rb : RegNum)
  /-- `DIV Dd, Da, Db` (R178). -/
  | div (rd ra rb : RegNum)
  /-- `CMP Da, Db` (R175). -/
  | cmp (ra rb : RegNum)
  deriving DecidableEq, Repr

end Sys2Proof
end

