-- ==== Sys2Proof/Machine/Dispatch.lean ====
section
/-! DEFINITION. The dispatcher: one arm per command, each a direct call of its meaning. -/

namespace Sys2Proof.Machine

def exec (i : Instr) (s : State) : Host.Outcome State Fault Refusal :=
  match i with
  | .dget r q p => Sys2Proof.Machine.execDget r q p s
  | .dset r q p v => Sys2Proof.Machine.execDset r q p v s
  | .gcnt q => Sys2Proof.Machine.execGcnt q s
  | .ldg r q g => Sys2Proof.Machine.execLdg r q g s
  | .rdg r q g => Sys2Proof.Machine.execRdg r q g s
  | .clr r => Sys2Proof.Machine.execClr r s
  | .mov rd ra => Sys2Proof.Machine.execMov rd ra s
  | .iget r sidx => Sys2Proof.Machine.execIget r sidx s
  | .iset r sidx v => Sys2Proof.Machine.execIset r sidx v s
  | .sget r => Sys2Proof.Machine.execSget r s
  | .sset r sgn => Sys2Proof.Machine.execSset r sgn s
  | .dcnt q => Sys2Proof.Machine.execDcnt q s
  | .add rd ra rb => Sys2Proof.Machine.execAdd rd ra rb s
  | .sub rd ra rb => Sys2Proof.Machine.execSub rd ra rb s
  | .mul rd ra rb => Sys2Proof.Machine.execMul rd ra rb s
  | .div rd ra rb => Sys2Proof.Machine.execDiv rd ra rb s
  | .cmp ra rb => Sys2Proof.Machine.execCmp ra rb s

end Sys2Proof.Machine
end

