-- ==== Sys2Proof/WellFormed.lean ====
section
/-! DEFINITION. Which commands have an encoding: every numeric operand fits its field (30_encoding.md R73, R74). -/

namespace Sys2Proof

/-- A position or group index fits the unsigned 16-bit `idx` field (30_encoding.md R73: 0..65535). -/
abbrev fitsIdx (n : Nat) : Prop := n < 65536

/-- A signed digit index fits the two's-complement 16-bit `idx` field (30_encoding.md R73: -32768..32767). -/
abbrev fitsSidx (n : Int) : Prop := -32768 ≤ n ∧ n ≤ 32767

/-- A digit value fits the 4-bit `val` field (30_encoding.md R74: 0..15; 10..15 are encodable on purpose). -/
abbrev fitsVal (n : Nat) : Prop := n < 16

/-- Every operand of the command fits the field the encoding gives it. -/
abbrev Instr.WellFormed (i : Instr) : Prop :=
  match i with
  | .dget _ _ p => fitsIdx p
  | .dset _ _ p v => fitsIdx p ∧ fitsVal v
  | .gcnt _ => True
  | .ldg _ _ g => fitsIdx g
  | .rdg _ _ g => fitsIdx g
  | .clr _ => True
  | .mov _ _ => True
  | .iget _ x => fitsSidx x
  | .iset _ x v => fitsSidx x ∧ fitsVal v
  | .sget _ => True
  | .sset _ _ => True
  | .dcnt _ => True
  | .add _ _ _ => True
  | .sub _ _ _ => True
  | .mul _ _ _ => True
  | .div _ _ _ => True
  | .cmp _ _ => True

end Sys2Proof
end

