-- ==== Sys2Proof/Decode.lean ====
section
/-! DEFINITION. The command decoder and encoder (30_encoding.md sections 2 to 5), and the opcode map as data. -/

namespace Sys2Proof

/-! ## The opcode map (R77) -/

/-- One row of the opcode map: a command word `c` selects the row when `(c & mask) = match` (R77). -/
structure OpRow where
  mnemonic : String
  pattern : CmdWord
  mask : CmdWord
  deriving DecidableEq, Repr

/-- "A command word `c` selects a row when `(c & mask) = match`" (R77). -/
def OpRow.selects (row : OpRow) (c : CmdWord) : Bool := c &&& row.mask == row.pattern

def rowDGET : OpRow := ⟨"DGET", 0x04000000#32, 0xFC3F0000#32⟩
def rowDSET : OpRow := ⟨"DSET", 0x08000000#32, 0xFC300000#32⟩
def rowGCNT : OpRow := ⟨"GCNT", 0x0C000000#32, 0xFFBFFFFF#32⟩
def rowLDG : OpRow := ⟨"LDG", 0x10000000#32, 0xFC3F0000#32⟩
def rowRDG : OpRow := ⟨"RDG", 0x14000000#32, 0xFC3F0000#32⟩
def rowCLR : OpRow := ⟨"CLR", 0x20000000#32, 0xFC7FFFFF#32⟩
def rowMOV : OpRow := ⟨"MOV", 0x24000000#32, 0xFC0FFFFF#32⟩
def rowIGET : OpRow := ⟨"IGET", 0x28000000#32, 0xFC7F0000#32⟩
def rowISET : OpRow := ⟨"ISET", 0x2C000000#32, 0xFC700000#32⟩
def rowSGET : OpRow := ⟨"SGET", 0x30000000#32, 0xFC7FFFFF#32⟩
def rowSSET : OpRow := ⟨"SSET", 0x34000000#32, 0xFC7EFFFF#32⟩
def rowDCNT : OpRow := ⟨"DCNT", 0x38000000#32, 0xFFBFFFFF#32⟩
def rowADD : OpRow := ⟨"ADD", 0x40000000#32, 0xFC01FFFF#32⟩
def rowSUB : OpRow := ⟨"SUB", 0x44000000#32, 0xFC01FFFF#32⟩
def rowMUL : OpRow := ⟨"MUL", 0x48000000#32, 0xFC01FFFF#32⟩
def rowDIV : OpRow := ⟨"DIV", 0x4C000000#32, 0xFC01FFFF#32⟩
def rowCMP : OpRow := ⟨"CMP", 0x50000000#32, 0xFF81FFFF#32⟩

/-- The opcode map of R77, in the table's order. -/
def opcodeMap : List OpRow :=
  [rowDGET, rowDSET, rowGCNT, rowLDG, rowRDG, rowCLR, rowMOV, rowIGET, rowISET, rowSGET, rowSSET, rowDCNT,
    rowADD, rowSUB, rowMUL, rowDIV, rowCMP]

/-- The row of the opcode map a command belongs to. -/
def Instr.row (i : Instr) : OpRow :=
  match i with
  | .dget _ _ _ => rowDGET
  | .dset _ _ _ _ => rowDSET
  | .gcnt _ => rowGCNT
  | .ldg _ _ _ => rowLDG
  | .rdg _ _ _ => rowRDG
  | .clr _ => rowCLR
  | .mov _ _ => rowMOV
  | .iget _ _ => rowIGET
  | .iset _ _ _ => rowISET
  | .sget _ => rowSGET
  | .sset _ _ => rowSSET
  | .dcnt _ => rowDCNT
  | .add _ _ _ => rowADD
  | .sub _ _ _ => rowSUB
  | .mul _ _ _ => rowMUL
  | .div _ _ _ => rowDIV
  | .cmp _ _ => rowCMP

/-! ## The fields of a command word (R70, R71) -/

/-- A 3-bit register field whose lowest bit is `lo` (R72). -/
def regField (c : CmdWord) (lo : Nat) : RegNum := (c.extractLsb' lo 3).toFin

/-- Bits 25:23: `rd` of format R, `r` of format D. -/
def fieldRd (c : CmdWord) : RegNum := regField c 23

/-- Bits 22:20: `ra` of format R. -/
def fieldRa (c : CmdWord) : RegNum := regField c 20

/-- Bits 19:17: `rb` of format R. -/
def fieldRb (c : CmdWord) : RegNum := regField c 17

/-- Bit 22: `q` of format D, 0 = I, 1 = F (R71). -/
def fieldQ (c : CmdWord) : Seq := if c.getLsbD 22 then .F else .I

/-- Bits 19:16: `val` of format D, unsigned (R74). -/
def fieldVal (c : CmdWord) : Nat := (c.extractLsb' 16 4).toNat

/-- Bit 16: `val[0]`, the sign of SSET (R74). -/
def fieldSign (c : CmdWord) : Bool := c.getLsbD 16

/-- Bits 15:0: `idx` as an unsigned position or group index, `zext(idx)` (R73). -/
def fieldIdx (c : CmdWord) : Nat := (c.extractLsb' 0 16).toNat

/-- Bits 15:0: `idx` as a signed digit index, `sext_16(idx)` (R73). -/
def fieldSidx (c : CmdWord) : Int := (c.extractLsb' 0 16).toInt

/-! ## Decoding (R76, R77, R78) -/

/-- The decoder: total on 32-bit words; `none` is an illegal command word (R78). The rows are disjoint (R77), so
the order of the tests does not matter. -/
def decode (c : CmdWord) : Option Instr :=
  if rowDGET.selects c then some (.dget (fieldRd c) (fieldQ c) (fieldIdx c))
  else if rowDSET.selects c then some (.dset (fieldRd c) (fieldQ c) (fieldIdx c) (fieldVal c))
  else if rowGCNT.selects c then some (.gcnt (fieldQ c))
  else if rowLDG.selects c then some (.ldg (fieldRd c) (fieldQ c) (fieldIdx c))
  else if rowRDG.selects c then some (.rdg (fieldRd c) (fieldQ c) (fieldIdx c))
  else if rowCLR.selects c then some (.clr (fieldRd c))
  else if rowMOV.selects c then some (.mov (fieldRd c) (fieldRa c))
  else if rowIGET.selects c then some (.iget (fieldRd c) (fieldSidx c))
  else if rowISET.selects c then some (.iset (fieldRd c) (fieldSidx c) (fieldVal c))
  else if rowSGET.selects c then some (.sget (fieldRd c))
  else if rowSSET.selects c then some (.sset (fieldRd c) (fieldSign c))
  else if rowDCNT.selects c then some (.dcnt (fieldQ c))
  else if rowADD.selects c then some (.add (fieldRd c) (fieldRa c) (fieldRb c))
  else if rowSUB.selects c then some (.sub (fieldRd c) (fieldRa c) (fieldRb c))
  else if rowMUL.selects c then some (.mul (fieldRd c) (fieldRa c) (fieldRb c))
  else if rowDIV.selects c then some (.div (fieldRd c) (fieldRa c) (fieldRb c))
  else if rowCMP.selects c then some (.cmp (fieldRa c) (fieldRb c))
  else none

/-- The command word whose bits the opcode table numbers as `w`, of which it gives the lowest `nbits`: bits at and
above `nbits` are 0. A number that needs more than 32 bits is no command word (R68). -/
def tableWord (nbits w : Nat) : Option CmdWord :=
  if w % 2 ^ nbits < 2 ^ 32 then some (BitVec.ofNat 32 (w % 2 ^ nbits)) else none

/-- What the decoder reads from a row of the opcode table (the command word travels on `cmd`, R65: there are no
bytes and no byte order to lay out, 91_not_in_source.md N12). -/
def decodeTableWord (nbits w : Nat) : Option Instr := (tableWord nbits w).bind decode

/-! ## Encoding (R70, R71, R92) -/

/-- Format R (R70): `op`, `rd`, `ra`, `rb` and 17 must-be-zero bits, from bit 31 down. -/
def formatR (op : BitVec 6) (rd ra rb : RegNum) : CmdWord :=
  op ++ BitVec.ofFin (w := 3) rd ++ BitVec.ofFin (w := 3) ra ++ BitVec.ofFin (w := 3) rb ++ 0#17

/-- The `q` bit of a sequence (00_scope.md R15: I = 0, F = 1). -/
def Seq.bit (q : Seq) : BitVec 1 :=
  match q with
  | .I => 0#1
  | .F => 1#1

/-- Format D (R71): `op`, `r`, `q`, two must-be-zero bits, `val`, `idx`, from bit 31 down. -/
def formatD (op : BitVec 6) (r : RegNum) (q : Seq) (val : BitVec 4) (idx : BitVec 16) : CmdWord :=
  op ++ BitVec.ofFin (w := 3) r ++ q.bit ++ 0#2 ++ val ++ idx

/-- The command word of a command (R70, R71, R77; the fields of R92). A field a command does not use is 0 (R76). -/
def encode (i : Instr) : CmdWord :=
  match i with
  | .dget r q p => formatD 0x01#6 r q 0#4 (BitVec.ofNat 16 p)
  | .dset r q p v => formatD 0x02#6 r q (BitVec.ofNat 4 v) (BitVec.ofNat 16 p)
  | .gcnt q => formatD 0x03#6 0 q 0#4 0#16
  | .ldg r q g => formatD 0x04#6 r q 0#4 (BitVec.ofNat 16 g)
  | .rdg r q g => formatD 0x05#6 r q 0#4 (BitVec.ofNat 16 g)
  | .clr r => formatD 0x08#6 r .I 0#4 0#16
  | .mov rd ra => formatR 0x09#6 rd ra 0
  | .iget r x => formatD 0x0A#6 r .I 0#4 (BitVec.ofInt 16 x)
  | .iset r x v => formatD 0x0B#6 r .I (BitVec.ofNat 4 v) (BitVec.ofInt 16 x)
  | .sget r => formatD 0x0C#6 r .I 0#4 0#16
  | .sset r sgn => formatD 0x0D#6 r .I (if sgn then 1#4 else 0#4) 0#16
  | .dcnt q => formatD 0x0E#6 0 q 0#4 0#16
  | .add rd ra rb => formatR 0x10#6 rd ra rb
  | .sub rd ra rb => formatR 0x11#6 rd ra rb
  | .mul rd ra rb => formatR 0x12#6 rd ra rb
  | .div rd ra rb => formatR 0x13#6 rd ra rb
  | .cmp ra rb => formatR 0x14#6 0 ra rb

end Sys2Proof
end

