-- ==== Sys2Proof/Machine/Port.lean ====
section
/-! DEFINITION. The command port at the level of the transaction (30_encoding.md R65 to R67): what one step does with
the host's next action, before and around the command itself. -/

namespace Sys2Proof.Machine

/-- What the port does with the host's next action. -/
inductive PortEvent where
  /-- No command is answered: the block is idle, or it was reset. -/
  | quiet (s : State)
  /-- The command word is accepted in this state. -/
  | accepted (cmd : CmdWord) (s : State)
  /-- The action has no meaning. -/
  | refused (r : Refusal)
  deriving DecidableEq, Repr

/-- The state in which an accepted command runs (R66): `cmd_wdata` sampled, `rsp_valid` low, the action consumed. -/
def acceptCommand (s : State) (wdata : Word) (rest : List HostAction) : State :=
  { s with wdata := wdata, host := rest, rsp := none }

/-- The host's next action at the port. With no action left the block waits, and the response of the step before has
gone (R66: `rsp_valid` is high for one clock). A command before the first reset is refused (10_state.md R32). A
command cut short by reset is abandoned: no response, the reset state (70_reset_and_hazards.md R217). -/
def portNext (s : State) : PortEvent :=
  match s.host with
  | [] => .quiet { s with rsp := none }
  | .reset :: rest => .quiet (applyReset { s with host := rest })
  | .command cmd wdata :: rest =>
    if s.hasReset then .accepted cmd (acceptCommand s wdata rest) else .refused .commandBeforeReset
  | .abandoned _ _ :: rest =>
    if s.hasReset then .quiet (applyReset { s with host := rest }) else .refused .commandBeforeReset

/-- The host offers one command before everything else it does. -/
def offerCommand (s : State) (cmd : CmdWord) (wdata : Word) : State :=
  { s with host := .command cmd wdata :: s.host }

/-! ## The output pins between two transactions (R65) -/

/-- `rsp_valid`. -/
def rspValid (s : State) : Bool := s.rsp.isSome

/-- `rsp_status`, where `rsp_valid` is high (93_implementation_defined.md V7: any value otherwise, so none here). -/
def rspStatus (s : State) : Option (BitVec 3) := s.rsp.map fun x => x.status.code

/-- `rsp_data`, where `rsp_valid` is high. -/
def rspData (s : State) : Option Word := s.rsp.map fun x => x.data

end Sys2Proof.Machine
end

