-- ==== Sys2Proof/Machine/Step.lean ====
section
/-! DEFINITION. One step: one transaction at the command port (30_encoding.md R66). -/

namespace Sys2Proof.Machine

/-- One step takes the host's next action. A command word that the decoder reads runs that command; one that selects
no row is answered `IllegalCommand` (R78). -/
def step (s : State) : Host.Outcome State Fault Refusal :=
  match portNext s with
  | .quiet t => .next t
  | .refused r => .refused r
  | .accepted cmd t =>
    match decode cmd with
    | some i => exec i t
    | none => illegalCommand t

/-- The state in which the host offers the opcode table's word `w` (of which the table gives `nbits` bits) as its next
command, with write data 0. There is no program counter and no program memory (10_state.md R27): a program is the
sequence of commands the host issues (log 4). A number that is no 32-bit word leaves the state as it is. -/
def State.withFetchWord (s : State) (nbits w : Nat) : State :=
  match tableWord nbits w with
  | some cmd => offerCommand s cmd 0#64
  | none => s

end Sys2Proof.Machine
end

