-- ==== Sys2Proof/Machine/Assembler.lean ====
section
/-! DEFINITION. The assembler syntax of 30_encoding.md section 7: lines (R91), operand order (R92) and the two-operand
spellings of the compound forms (R93). Text is a list of characters, so that the kernel can evaluate it. -/

namespace Sys2Proof.Machine

/-! ## Operands and mnemonics -/

/-- One operand of a line (R91): a register, a sequence, or a number. -/
inductive AsmOperand where
  | reg (r : RegNum)
  | seq (q : Seq)
  | num (n : Int)
  deriving DecidableEq, Repr

/-- What one line assembles to: the command and, for LDG, its write data (R92: the last operand). -/
structure AsmCommand where
  instr : Instr
  wdata : Word
  deriving DecidableEq, Repr

/-- A command with no write data. -/
def plainCommand (i : Instr) : AsmCommand := { instr := i, wdata := 0#64 }

/-- The mnemonics, spelled as the opcode map has them (R77, R91). -/
inductive Mnemonic where
  | DGET | DSET | GCNT | LDG | RDG | CLR | MOV | IGET | ISET | SGET | SSET | DCNT | ADD | SUB | MUL | DIV | CMP
  deriving DecidableEq, Repr

/-- The mnemonic a word of text spells, in capitals (R91). -/
def mnemonicOf (w : List Char) : Option Mnemonic :=
  if w = ['D', 'G', 'E', 'T'] then some .DGET
  else if w = ['D', 'S', 'E', 'T'] then some .DSET
  else if w = ['G', 'C', 'N', 'T'] then some .GCNT
  else if w = ['L', 'D', 'G'] then some .LDG
  else if w = ['R', 'D', 'G'] then some .RDG
  else if w = ['C', 'L', 'R'] then some .CLR
  else if w = ['M', 'O', 'V'] then some .MOV
  else if w = ['I', 'G', 'E', 'T'] then some .IGET
  else if w = ['I', 'S', 'E', 'T'] then some .ISET
  else if w = ['S', 'G', 'E', 'T'] then some .SGET
  else if w = ['S', 'S', 'E', 'T'] then some .SSET
  else if w = ['D', 'C', 'N', 'T'] then some .DCNT
  else if w = ['A', 'D', 'D'] then some .ADD
  else if w = ['S', 'U', 'B'] then some .SUB
  else if w = ['M', 'U', 'L'] then some .MUL
  else if w = ['D', 'I', 'V'] then some .DIV
  else if w = ['C', 'M', 'P'] then some .CMP
  else none

/-! ## Operand order (R92) and the compound forms (R93) -/

/-- The command a mnemonic and its operands spell; `none` where the operands have another shape. ADD, SUB, MUL and DIV
with two registers are the compound forms, with the destination as left source (R93). -/
def commandOf (m : Mnemonic) (ops : List AsmOperand) : Option AsmCommand :=
  match m, ops with
  | .DGET, [.reg r, .seq q, .num (.ofNat p)] => some (plainCommand (.dget r q p))
  | .DSET, [.reg r, .seq q, .num (.ofNat p), .num (.ofNat v)] => some (plainCommand (.dset r q p v))
  | .GCNT, [.seq q] => some (plainCommand (.gcnt q))
  | .LDG, [.reg r, .seq q, .num (.ofNat g), .num (.ofNat d)] =>
    if d < 2 ^ 64 then some { instr := .ldg r q g, wdata := BitVec.ofNat 64 d } else none
  | .RDG, [.reg r, .seq q, .num (.ofNat g)] => some (plainCommand (.rdg r q g))
  | .CLR, [.reg r] => some (plainCommand (.clr r))
  | .MOV, [.reg rd, .reg ra] => some (plainCommand (.mov rd ra))
  | .IGET, [.reg r, .num x] => some (plainCommand (.iget r x))
  | .ISET, [.reg r, .num x, .num (.ofNat v)] => some (plainCommand (.iset r x v))
  | .SGET, [.reg r] => some (plainCommand (.sget r))
  | .SSET, [.reg r, .num (.ofNat 0)] => some (plainCommand (.sset r false))
  | .SSET, [.reg r, .num (.ofNat 1)] => some (plainCommand (.sset r true))
  | .DCNT, [.seq q] => some (plainCommand (.dcnt q))
  | .ADD, [.reg rd, .reg ra, .reg rb] => some (plainCommand (.add rd ra rb))
  | .ADD, [.reg rd, .reg rb] => some (plainCommand (.add rd rd rb))
  | .SUB, [.reg rd, .reg ra, .reg rb] => some (plainCommand (.sub rd ra rb))
  | .SUB, [.reg rd, .reg rb] => some (plainCommand (.sub rd rd rb))
  | .MUL, [.reg rd, .reg ra, .reg rb] => some (plainCommand (.mul rd ra rb))
  | .MUL, [.reg rd, .reg rb] => some (plainCommand (.mul rd rd rb))
  | .DIV, [.reg rd, .reg ra, .reg rb] => some (plainCommand (.div rd ra rb))
  | .DIV, [.reg rd, .reg rb] => some (plainCommand (.div rd rd rb))
  | .CMP, [.reg ra, .reg rb] => some (plainCommand (.cmp ra rb))
  | _, _ => none

/-- What the host offers at the port for a command (R92): its word and its write data. A command whose numbers do not
fit their fields has no word. -/
def AsmCommand.action (c : AsmCommand) : Option HostAction :=
  if decode (encode c.instr) = some c.instr then some (.command (encode c.instr) c.wdata) else none

/-! ## Text (R91) -/

/-- The text before a comment: a `;` starts one. -/
def stripComment (t : List Char) : List Char := t.takeWhile (· != ';')

/-- Whether a character is white space. -/
def isBlank (ch : Char) : Bool := ch == ' ' || ch == '\t'

/-- The text without white space at either end. -/
def trimBlanks (t : List Char) : List Char := ((t.dropWhile isBlank).reverse.dropWhile isBlank).reverse

/-- The pieces of a text between commas; the empty text has none. -/
def splitCommas (t : List Char) : List (List Char) :=
  match t with
  | [] => []
  | ch :: rest =>
    if ch == ',' then [] :: (if rest = [] then [[]] else splitCommas rest)
    else
      match splitCommas rest with
      | [] => [[ch]]
      | w :: ws => (ch :: w) :: ws

/-- The value of a decimal digit character. -/
def decimalDigit (ch : Char) : Option Nat :=
  if '0'.toNat ≤ ch.toNat ∧ ch.toNat ≤ '9'.toNat then some (ch.toNat - '0'.toNat) else none

/-- The value of a hexadecimal digit character. -/
def hexDigit (ch : Char) : Option Nat :=
  if 'a'.toNat ≤ ch.toNat ∧ ch.toNat ≤ 'f'.toNat then some (ch.toNat - 'a'.toNat + 10)
  else if 'A'.toNat ≤ ch.toNat ∧ ch.toNat ≤ 'F'.toNat then some (ch.toNat - 'A'.toNat + 10)
  else decimalDigit ch

/-- A numeral in a base, from the most significant digit, onto the value read so far. -/
def numeral (base : Nat) (digit : Char → Option Nat) (acc : Nat) (t : List Char) : Option Nat :=
  match t with
  | [] => some acc
  | ch :: rest =>
    match digit ch with
    | some d => numeral base digit (base * acc + d) rest
    | none => none

/-- An unsigned number: decimal, or hexadecimal with `0x` (R91). -/
def unsignedOf (t : List Char) : Option Nat :=
  match t with
  | [] => none
  | ['0', 'x'] => none
  | '0' :: 'x' :: rest => numeral 16 hexDigit 0 rest
  | ch :: rest => numeral 10 decimalDigit 0 (ch :: rest)

/-- One operand (R91): `D0`..`D7`, `I`, `F`, or a number; a signed index may carry `-`. -/
def operandOf (t : List Char) : Option AsmOperand :=
  match t with
  | ['I'] => some (.seq .I)
  | ['F'] => some (.seq .F)
  | ['D', ch] =>
    match decimalDigit ch with
    | some n => if h : n < 8 then some (.reg ⟨n, h⟩) else none
    | none => none
  | '-' :: rest => (unsignedOf rest).map fun n => .num (-(n : Int))
  | _ => (unsignedOf t).map fun n => .num (Int.ofNat n)

/-- One line (R91): a mnemonic in capitals, then operands separated by commas. -/
def assembleLine (line : List Char) : Option AsmCommand :=
  let t := trimBlanks (stripComment line)
  let word := t.takeWhile fun ch => !isBlank ch
  match mnemonicOf word, (splitCommas (t.drop word.length)).mapM fun w => operandOf (trimBlanks w) with
  | some m, some ops => commandOf m ops
  | _, _ => none

end Sys2Proof.Machine
end

