-- ==== Sys2Proof/Machine/Value.lean ====
section
/-! DEFINITION. What the digits mean (20_memory.md R46) and the closed forms of the multiplier's result
(43_multiply.md R161, R162). No meaning of a command uses them; claims do. -/

namespace Sys2Proof.Machine

/-- `sum over k in 0..n-1 of a(k) * 10^k`. -/
def digitSum (a : Nat → Nat) (n : Nat) : Nat :=
  match n with
  | 0 => 0
  | k + 1 => digitSum a k + a k * 10 ^ k

/-- The value of a digit list, least significant digit first. -/
def listValue (ds : List Nat) : Nat :=
  match ds with
  | [] => 0
  | d :: rest => d + 10 * listValue rest

/-- The magnitude of a register as a natural number (R46): the sum of its combined digits by place value. -/
def DReg.mag (c : Config) (d : DReg) : Nat := digitSum (d.comb c) c.N

/-- `mag(r)` (00_scope.md R16). -/
def mag (s : State) (r : RegNum) : Nat := (s.reg r).mag s.cfg

/-- `val(r) = (-1)^sign * mag(r) / 10^FD` (44_compare_divide.md R176). -/
def val (s : State) (r : RegNum) : ℚ :=
  (if (s.reg r).sign then -1 else 1) * (mag s r : ℚ) / 10 ^ s.cfg.FD

/-- `10^N`: the first magnitude a register cannot hold. -/
def capacity (c : Config) : Nat := 10 ^ c.N

/-- `pp_i = (a_i * 10^i * B) / 10^FD`, the partial product of digit `i` (R161). -/
def partialValue (c : Config) (ai i B : Nat) : Nat := ai * 10 ^ i * B / 10 ^ c.FD

/-- `sum over i in 0..n-1 of pp_i`. -/
def partialSum (c : Config) (a : Nat → Nat) (B n : Nat) : Nat :=
  match n with
  | 0 => 0
  | k + 1 => partialSum c a B k + partialValue c (a k) k B

/-- `R`, the sum the multiplier forms (R161). -/
def mulSum (s : State) (ra rb : RegNum) : Nat := partialSum s.cfg (combRead s ra) (mag s rb) s.cfg.N

/-- `E = (A * B) / 10^FD`, the exact product cut to `FD` fractional digits (R162). -/
def mulExact (s : State) (ra rb : RegNum) : Nat := mag s ra * mag s rb / 10 ^ s.cfg.FD

end Sys2Proof.Machine
end

