-- ==== Sys2Proof/Safety.lean ====
section
/-! DEFINITION. Well-formed states: the digit invariant and the spare-nibble invariant (10_state.md R24, R25), the
sizes of the registers, and what a claim means by "the same architectural state". -/

namespace Sys2Proof.Machine

/-- One group of a sequence holds legal contents: a field at a position below the digit count holds 0 to 9 (R24); every
other field of the container (a spare nibble, R25, or a bit at or above `W`) is 0. -/
abbrev groupLegal (c : Config) (q : Seq) (g : Nat) (w : Word) : Prop :=
  ∀ o < 16, extractField w o ≤ (if o < c.DPG ∧ g * c.DPG + o < c.cnt q then 9 else 0)

/-- One sequence has the group count of the configuration and only legal groups. -/
abbrev seqLegal (c : Config) (q : Seq) (ws : List Word) : Prop :=
  ws.length = c.gcnt q ∧ ∀ g < c.gcnt q, groupLegal c q g (ws.getD g 0#64)

/-- A decimal register satisfies R24 and R25. -/
abbrev DReg.wf (c : Config) (d : DReg) : Prop := seqLegal c .I d.ig ∧ seqLegal c .F d.fg

/-- A well-formed state: the parameters are admitted (00_scope.md R3, R5), every register satisfies R24 and R25, and
reset has been applied (R32). -/
abbrev State.wf (s : State) : Prop :=
  s.cfg.wf ∧ s.hasReset = true ∧ ∀ r : RegNum, (s.reg r).wf s.cfg

/-- Two states have the same architectural state: the same registers (and the parameters they are read with). -/
abbrev sameRegs (s t : State) : Prop := t.cfg = s.cfg ∧ t.regs = s.regs

/-- Everything but the registers and the response port is as before. -/
abbrev samePort (s t : State) : Prop :=
  t.cfg = s.cfg ∧ t.hasReset = s.hasReset ∧ t.wdata = s.wdata ∧ t.host = s.host

/-- The frame of a command with destination `rd`: every other register is as before, and so is everything but the
response port (10_state.md R26). -/
abbrev onlyReg (rd : RegNum) (s t : State) : Prop := samePort s t ∧ ∀ r, r ≠ rd → t.reg r = s.reg r

/-- The command answered: its response has this status and this data. -/
abbrev answered (t : State) (st : Status) (data : Word) : Prop := t.rsp = some ⟨st, data⟩

/-- The command runs and answers Ok with data 0. -/
abbrev runsOk (i : Instr) (s t : State) : Prop := exec i s = .next t ∧ answered t .ok 0#64

/-- The command answers with this status and data 0 and changes nothing but the response port (R192, R196). -/
abbrev failsWith (i : Instr) (s : State) (st : Status) : Prop := exec i s = .next { s with rsp := some ⟨st, 0#64⟩ }

/-- The command only reads: it answers Ok with this data and changes nothing but the response port (R58). -/
abbrev readsNat (i : Instr) (s : State) (n : Nat) : Prop :=
  exec i s = .next { s with rsp := some ⟨.ok, BitVec.ofNat 64 n⟩ }

/-- Two states hold the same groups in one sequence position of two registers. -/
abbrev sameGroups (s : State) (r : RegNum) (t : State) (r' : RegNum) : Prop :=
  ∀ q, ∀ g < s.cfg.gcnt q, groupRead t r' q g = groupRead s r q g

/-- The register a command writes, if it writes one (10_state.md section 4, "written by"). -/
def destOf (i : Instr) : Option RegNum :=
  match i with
  | .dget _ _ _ => none
  | .dset r _ _ _ => some r
  | .gcnt _ => none
  | .ldg r _ _ => some r
  | .rdg _ _ _ => none
  | .clr r => some r
  | .mov rd _ => some rd
  | .iget _ _ => none
  | .iset r _ _ => some r
  | .sget _ => none
  | .sset r _ => some r
  | .dcnt _ => none
  | .add rd _ _ => some rd
  | .sub rd _ _ => some rd
  | .mul rd _ _ => some rd
  | .div _ _ _ => none
  | .cmp _ _ => none

/-- The commands that only read (20_memory.md R58). -/
def isRead (i : Instr) : Bool :=
  match i with
  | .dget _ _ _ => true
  | .dset _ _ _ _ => false
  | .gcnt _ => true
  | .ldg _ _ _ => false
  | .rdg _ _ _ => true
  | .clr _ => false
  | .mov _ _ => false
  | .iget _ _ => true
  | .iset _ _ _ => false
  | .sget _ => true
  | .sset _ _ => false
  | .dcnt _ => true
  | .add _ _ _ => false
  | .sub _ _ _ => false
  | .mul _ _ _ => false
  | .div _ _ _ => false
  | .cmp _ _ => true

/-- The commands R58 calls idempotent. -/
def isIdempotentWrite (i : Instr) : Bool :=
  match i with
  | .dget _ _ _ => false
  | .dset _ _ _ _ => true
  | .gcnt _ => false
  | .ldg _ _ _ => true
  | .rdg _ _ _ => false
  | .clr _ => true
  | .mov _ _ => true
  | .iget _ _ => false
  | .iset _ _ _ => true
  | .sget _ => false
  | .sset _ _ => true
  | .dcnt _ => false
  | .add _ _ _ => false
  | .sub _ _ _ => false
  | .mul _ _ _ => false
  | .div _ _ _ => false
  | .cmp _ _ => false

/-- The commands whose rule gives no response data (30_encoding.md R90: `rsp_data` is 0). -/
def hasNoData (i : Instr) : Bool :=
  match i with
  | .dget _ _ _ => false
  | .dset _ _ _ _ => true
  | .gcnt _ => false
  | .ldg _ _ _ => true
  | .rdg _ _ _ => false
  | .clr _ => true
  | .mov _ _ => true
  | .iget _ _ => false
  | .iset _ _ _ => true
  | .sget _ => false
  | .sset _ _ => true
  | .dcnt _ => false
  | .add _ _ _ => true
  | .sub _ _ _ => true
  | .mul _ _ _ => true
  | .div _ _ _ => false
  | .cmp _ _ => false

/-- The status of a command by the table of 60_exceptions.md R191 and the order of checks of R194, stated on
positions, fields and magnitudes and not on the datapath. -/
def expectedStatus (i : Instr) (s : State) : Status :=
  match i with
  | .dget _ q p => if q = .I ∧ s.cfg.ID ≤ p then .indexOutOfRange else .ok
  | .dset _ q p v =>
    if s.cfg.cnt q ≤ p then .indexOutOfRange else if 10 ≤ v then .digitOutOfRange else .ok
  | .gcnt _ => .ok
  | .ldg _ q g =>
    if s.cfg.gcnt q ≤ g then .indexOutOfRange
    else if ∃ o < s.cfg.DPG, 10 ≤ extractField s.wdata o then .digitOutOfRange
    else if ∃ o < s.cfg.DPG, s.cfg.cnt q ≤ g * s.cfg.DPG + o ∧ extractField s.wdata o ≠ 0 then .indexOutOfRange
    else .ok
  | .rdg _ q g => if s.cfg.gcnt q ≤ g then .indexOutOfRange else .ok
  | .clr _ => .ok
  | .mov _ _ => .ok
  | .iget _ x => if (s.cfg.ID : Int) ≤ x ∨ x < -(s.cfg.FD : Int) then .indexOutOfRange else .ok
  | .iset _ x v =>
    if (s.cfg.ID : Int) ≤ x ∨ x < -(s.cfg.FD : Int) then .indexOutOfRange
    else if 10 ≤ v then .digitOutOfRange else .ok
  | .sget _ => .ok
  | .sset _ _ => .ok
  | .dcnt _ => .ok
  | .add _ ra rb => if capacity s.cfg ≤ mag s ra + mag s rb then .overflow else .ok
  | .sub _ ra rb => if mag s ra < mag s rb then .underflow else .ok
  | .mul _ ra rb => if capacity s.cfg ≤ mulSum s ra rb then .overflow else .ok
  | .div _ _ _ => .divisionUnspecified
  | .cmp _ _ => .ok

/-- No partial product of `ra` by `rb` drops a nonzero digit below the last fractional place (43_multiply.md R162). -/
abbrev dropsNoDigit (s : State) (ra rb : RegNum) : Prop :=
  ∀ i < s.cfg.N, 10 ^ s.cfg.FD ∣ combRead s ra i * 10 ^ i * mag s rb

/-- What one accepted command does to the block: its rule, or the illegal-command response (20_memory.md R57). -/
def answerCommand (s : State) (cmd : CmdWord) (wdata : Word) (rest : List HostAction) : Result :=
  match decode cmd with
  | some i => exec i (acceptCommand s wdata rest)
  | none => illegalCommand (acceptCommand s wdata rest)

/-- The rules of a sequence of commands applied one after another, in order (R57). -/
def applyRules (s : State) (cmds : List (CmdWord × Word)) : Result :=
  match cmds with
  | [] => .next s
  | (cmd, wdata) :: rest =>
    match answerCommand s cmd wdata (rest.map fun x => .command x.1 x.2) with
    | .next t => applyRules t rest
    | .fault f => .fault f
    | .refused r => .refused r

end Sys2Proof.Machine
end

