-- ==== Sys2Proof/Certificates/Slice0/Obligations.lean ====
section
/-! DEFINITION. The statements for the provers. Each docstring names the rules of spec/ it rests on. Statements hold for
every admitted configuration (`s.cfg`); those about digit values take the well-formed-state invariant as premise. -/

open Sys2Proof Sys2Proof.Machine

/-! ## Encoding -/

/-- R70, R71, R73, R74, R77: decoding the word of a well-formed command gives the command back, with every operand at
every value its field admits. -/
def Obligations.DecodeOfEncodeGivesTheCommand : Prop :=
  ∀ i : Instr, i.WellFormed → decode (encode i) = some i

/-- R73, R74, R76: a word that decodes is the word of the command it decodes to, so no bit of a word is dropped, and
every operand read from a word fits its field. -/
def Obligations.EncodeOfDecodeGivesTheWord : Prop :=
  ∀ (c : CmdWord) (i : Instr), decode c = some i → i.WellFormed ∧ encode i = c

/-- R77, R78: the opcode map has 17 rows; every word either selects exactly one row, and decodes to a command of that
row, or selects none and does not decode. -/
def Obligations.EveryWordSelectsOneRowOrDoesNotDecode : Prop :=
  opcodeMap.length = 17 ∧
  ∀ c : CmdWord,
    (∃ i, decode c = some i ∧ i.row ∈ opcodeMap ∧ ∀ row ∈ opcodeMap, row.selects c = true ↔ row = i.row) ∨
    (decode c = none ∧ ∀ row ∈ opcodeMap, row.selects c = false)

/-- R94: the three encodings the spec works out. -/
def Obligations.SpecEncodingExamples : Prop :=
  (encode (.add 0 0 1) = 0x40020000#32 ∧ decode 0x40020000#32 = some (.add 0 0 1)) ∧
  (encode (.iget 0 (-1)) = 0x2800FFFF#32 ∧ decode 0x2800FFFF#32 = some (.iget 0 (-1))) ∧
  (encode (.dset 2 .F 1 7) = 0x09470001#32 ∧ decode 0x09470001#32 = some (.dset 2 .F 1 7))

/-- R93: the two-operand spellings of ADD, SUB, MUL and DIV are the three-operand ones with the destination as left
source. -/
def Obligations.CompoundFormsNameTheDestinationTwice : Prop :=
  ∀ rd rb : RegNum,
    commandOf .ADD [.reg rd, .reg rb] = commandOf .ADD [.reg rd, .reg rd, .reg rb] ∧
    commandOf .SUB [.reg rd, .reg rb] = commandOf .SUB [.reg rd, .reg rd, .reg rb] ∧
    commandOf .MUL [.reg rd, .reg rb] = commandOf .MUL [.reg rd, .reg rd, .reg rb] ∧
    commandOf .DIV [.reg rd, .reg rb] = commandOf .DIV [.reg rd, .reg rd, .reg rb] ∧
    commandOf .ADD [.reg rd, .reg rb] = some (plainCommand (.add rd rd rb)) ∧
    commandOf .SUB [.reg rd, .reg rb] = some (plainCommand (.sub rd rd rb)) ∧
    commandOf .MUL [.reg rd, .reg rb] = some (plainCommand (.mul rd rd rb)) ∧
    commandOf .DIV [.reg rd, .reg rb] = some (plainCommand (.div rd rd rb))

/-! ## The step, reset and the command port -/

/-- R66: a step runs the command the decoder reads from the word offered, in the state that has sampled the write data
and lowered `rsp_valid`, with the offer consumed (`acceptCommand`; the port as a list of host actions is the model's,
log 3). -/
def Obligations.StepRunsTheDecodedCommand : Prop :=
  ∀ (s : State) (cmd : CmdWord) (wdata : Word) (rest : List HostAction) (i : Instr),
    s.hasReset = true → s.host = .command cmd wdata :: rest → decode cmd = some i →
    step s = exec i { s with wdata := wdata, host := rest, rsp := none }

/-- R78: which words are illegal, and that an illegal word is answered `IllegalCommand` (status 7), data 0, with no
state change. -/
def Obligations.IllegalWordsAreAnsweredAndChangeNothing : Prop :=
  (∀ c : CmdWord, decode c = none ↔ ∀ row ∈ opcodeMap, c &&& row.mask ≠ row.pattern) ∧
  (∀ c : CmdWord, c.extractLsb' 26 6 ∈ [0x00#6, 0x06#6, 0x07#6, 0x0F#6] ∨ 0x15#6 ≤ c.extractLsb' 26 6 →
    decode c = none) ∧
  decode 0#32 = none ∧ decode (BitVec.allOnes 32) = none ∧
  (∀ c : CmdWord, decode c = none ∨ ∃ row ∈ opcodeMap, c &&& row.mask = row.pattern ∧
    ∀ row' ∈ opcodeMap, c &&& row'.mask = row'.pattern → row' = row) ∧
  Status.illegalCommand.code = 7#3 ∧
  (∀ (s : State) (cmd : CmdWord) (wdata : Word) (rest : List HostAction),
    s.hasReset = true → s.host = .command cmd wdata :: rest → decode cmd = none →
    ∃ t, step s = .next t ∧ answered t .illegalCommand 0#64 ∧ sameRegs s t ∧ t.hasReset = true ∧ t.host = rest)

/-- R31: after reset every group is 0 and every sign flag is 0, in every configuration and so in `State.reset`. -/
def Obligations.ResetStateIsAllZero : Prop :=
  (∀ (c : Config) (r : RegNum), ((State.resetFor c).reg r).sign = false ∧
    ∀ q, ((State.resetFor c).reg r).seq q = List.replicate (c.gcnt q) 0#64) ∧
  (∀ r : RegNum, (State.reset.reg r).sign = false ∧
    ∀ q, (State.reset.reg r).seq q = List.replicate (State.reset.cfg.gcnt q) 0#64)

/-- R215, R216, R31: an edge with `rst` high gives the reset state from any state, with no response, and leaves the
parameters alone. -/
def Obligations.ResetGivesTheResetState : Prop :=
  ∀ (s : State) (rest : List HostAction), s.host = .reset :: rest →
    ∃ t, step s = .next t ∧ t.cfg = s.cfg ∧ t.hasReset = true ∧ t.rsp = none ∧ t.host = rest ∧
      ∀ r, (t.reg r).sign = false ∧ ∀ q, (t.reg r).seq q = List.replicate (s.cfg.gcnt q) 0#64

/-- R217: a command cut short by reset gives no response and leaves the reset state. -/
def Obligations.AbandonedCommandLeavesTheResetState : Prop :=
  ∀ (s : State) (cmd : CmdWord) (wdata : Word) (rest : List HostAction),
    s.hasReset = true → s.host = .abandoned cmd wdata :: rest →
    ∃ t, step s = .next t ∧ t.rsp = none ∧ t.cfg = s.cfg ∧ t.hasReset = true ∧ t.host = rest ∧
      ∀ r, (t.reg r).sign = false ∧ ∀ q, (t.reg r).seq q = List.replicate (s.cfg.gcnt q) 0#64

/-- R32: whatever the registers hold, a command before the first reset is refused. -/
def Obligations.CommandBeforeResetIsRefused : Prop :=
  ∀ (s : State) (cmd : CmdWord) (wdata : Word) (rest : List HostAction),
    s.hasReset = false → s.host = .command cmd wdata :: rest ∨ s.host = .abandoned cmd wdata :: rest →
    step s = .refused .commandBeforeReset

/-- R66, R222: every accepted command is answered, by exactly the step that takes it, and the block is then ready for
the host's next action. -/
def Obligations.EveryAcceptedCommandIsAnswered : Prop :=
  ∀ (s : State) (cmd : CmdWord) (wdata : Word) (rest : List HostAction),
    s.hasReset = true → s.host = .command cmd wdata :: rest →
    ∃ t resp, step s = .next t ∧ t.rsp = some resp ∧ t.host = rest ∧ t.hasReset = true ∧ t.cfg = s.cfg

/-- R57: the state after a sequence of commands is the result of applying their rules one after another, in order. -/
def Obligations.CommandsTakeEffectInOrder : Prop :=
  ∀ (s : State) (cmds : List (CmdWord × Word)),
    s.hasReset = true → s.host = cmds.map (fun x => .command x.1 x.2) →
    (Host.Core.run Sys2Proof.core cmds.length s : Result) = applyRules s cmds

/-! ## Invariants -/

/-- R24, R25, R33, R215: every step keeps well-formed states well formed: the admitted parameters, the digit invariant,
the spare nibbles, the sizes of the registers. -/
def Obligations.StepKeepsStatesWellFormed : Prop :=
  ∀ s t : State, s.wf → step s = .next t → t.wf

/-- R33: every command maps a state that satisfies R24 and R25 to one that satisfies them, whatever its operands (also
operands that fit no field) and whatever its status. -/
def Obligations.EveryCommandKeepsTheDigitInvariants : Prop :=
  ∀ (i : Instr) (s : State), s.wf → ∃ t, exec i s = .next t ∧ t.wf

/-- R31 with R24, R25: the reset state of every admitted configuration is well formed, and so is `State.reset`. -/
def Obligations.ResetStateIsWellFormed : Prop :=
  (∀ c : Config, c.wf → (State.resetFor c).wf) ∧ State.reset.wf

/-- R5, R28, R216: no step changes the elaboration parameters. -/
def Obligations.StepNeverChangesTheParameters : Prop :=
  ∀ s t : State, step s = .next t → t.cfg = s.cfg

/-- R8, R90: response data fits the `RW = max(W, 16)` wires of `rsp_data`. -/
def Obligations.ResponseDataFitsThePort : Prop :=
  ∀ (i : Instr) (s t : State) (resp : Response), s.wf → exec i s = .next t → t.rsp = some resp →
    resp.data.toNat < 2 ^ s.cfg.RW

/-! ## Statuses: the exception mechanism -/

/-- R190: the codes on `rsp_status`. -/
def Obligations.StatusCodesAreTheTables : Prop :=
  Status.ok.code = 0#3 ∧ Status.overflow.code = 1#3 ∧ Status.underflow.code = 2#3 ∧
  Status.digitOutOfRange.code = 3#3 ∧ Status.indexOutOfRange.code = 4#3 ∧ Status.widthMismatch.code = 5#3 ∧
  Status.divisionUnspecified.code = 6#3 ∧ Status.illegalCommand.code = 7#3

/-- R191, R194: every decoded command answers exactly the status the table gives it (`expectedStatus`, written on
positions, fields and magnitudes, in the order of R194), so `WidthMismatch` and `IllegalCommand` never. The same at the
port: a word that decodes answers the status the table gives its command with the write data offered beside it; a word
that selects no command answers `IllegalCommand`, whatever its other fields would have meant. -/
def Obligations.StatusIsTheTablesStatus : Prop :=
  (∀ (i : Instr) (s : State), s.wf →
    (∃ t data, exec i s = .next t ∧ t.rsp = some ⟨expectedStatus i s, data⟩) ∧
    expectedStatus i s ≠ .widthMismatch ∧ expectedStatus i s ≠ .illegalCommand) ∧
  (∀ (s : State) (cmd : CmdWord) (wdata : Word) (rest : List HostAction) (i : Instr),
    s.wf → s.host = .command cmd wdata :: rest → decode cmd = some i →
    ∃ t data, step s = .next t ∧ t.rsp = some ⟨expectedStatus i { s with wdata := wdata }, data⟩) ∧
  (∀ (s : State) (cmd : CmdWord) (wdata : Word) (rest : List HostAction),
    s.hasReset = true → s.host = .command cmd wdata :: rest →
    (∀ i, decode cmd = some i → ∃ t, step s = exec i t ∧ sameRegs s t ∧ t.wdata = wdata ∧ t.hasReset = true) ∧
    (decode cmd = none → ∃ t, step s = .next t ∧ answered t .illegalCommand 0#64))

/-- R192: a non-Ok response records the status code and nothing else: data 0, and nothing but the response port
changes; so also for a command word offered at the port, decoded or not, beyond the port's own sampling. -/
def Obligations.FailedCommandRecordsOnlyItsStatus : Prop :=
  (∀ (i : Instr) (s t : State) (resp : Response), exec i s = .next t → t.rsp = some resp → resp.status ≠ .ok →
    resp.data = 0#64 ∧ t = { s with rsp := some ⟨resp.status, 0#64⟩ }) ∧
  (∀ (s t : State) (cmd : CmdWord) (wdata : Word) (rest : List HostAction) (resp : Response),
    s.host = .command cmd wdata :: rest → step s = .next t → t.rsp = some resp → resp.status ≠ .ok →
    resp.data = 0#64 ∧ t = { s with wdata := wdata, host := rest, rsp := some ⟨resp.status, 0#64⟩ })

/-- R67: every command, whatever its outcome, produces a status and data, also a word that does not decode; the data is
0 when the status is not Ok, and when it is Ok and the command's rule gives no data. -/
def Obligations.EveryCommandResponds : Prop :=
  (∀ (i : Instr) (s : State), ∃ t resp, exec i s = .next t ∧ t.rsp = some resp ∧
    (resp.status ≠ .ok → resp.data = 0#64) ∧ (resp.status = .ok → hasNoData i = true → resp.data = 0#64)) ∧
  (∀ (s : State) (cmd : CmdWord) (wdata : Word) (rest : List HostAction),
    s.hasReset = true → s.host = .command cmd wdata :: rest →
    ∃ t resp, step s = .next t ∧ t.rsp = some resp ∧ (resp.status ≠ .ok → resp.data = 0#64))

/-- R29: no command's behaviour depends on an earlier command's response. -/
def Obligations.EarlierResponsesHaveNoEffect : Prop :=
  (∀ (i : Instr) (s : State) (x : Option Response), exec i { s with rsp := x } = exec i s) ∧
  (∀ (s : State) (x : Option Response), step { s with rsp := x } = step s)

/-! ## What commands read and write -/

/-- R26: a command changes no register but its destination, and nothing else but the response port. -/
def Obligations.OnlyTheDestinationRegisterChanges : Prop :=
  ∀ (i : Instr) (s t : State), exec i s = .next t →
    samePort s t ∧ ∀ r, destOf i ≠ some r → t.reg r = s.reg r

/-- R58: no read has a side effect, and a read repeated while no write intervenes returns the same response; LDG, DSET,
ISET, SSET, CLR and MOV are idempotent; ADD, SUB and MUL with the destination among the sources are not. -/
def Obligations.ReadsAreFreeAndPlainWritesIdempotent : Prop :=
  (∀ (i : Instr) (s t : State), isRead i = true → exec i s = .next t →
    t = { s with rsp := t.rsp } ∧
    ∀ u : State, u.cfg = s.cfg → u.regs = s.regs → exec i u = .next { u with rsp := t.rsp }) ∧
  (∀ (i : Instr) (s t : State), isIdempotentWrite i = true → exec i s = .next t → exec i t = .next t) ∧
  (∃ s t u : State, s.wf ∧ runsOk (.add 0 0 1) s t ∧ runsOk (.add 0 0 1) t u ∧ u.reg 0 ≠ t.reg 0) ∧
  (∃ s t u : State, s.wf ∧ runsOk (.sub 0 0 1) s t ∧ runsOk (.sub 0 0 1) t u ∧ u.reg 0 ≠ t.reg 0) ∧
  (∃ s t u : State, s.wf ∧ runsOk (.mul 0 0 1) s t ∧ runsOk (.mul 0 0 1) t u ∧ u.reg 0 ≠ t.reg 0)

/-- R65, R75, 93_implementation_defined.md V6: `cmd_wdata` is read by LDG alone. -/
def Obligations.OnlyLdgReadsTheWriteData : Prop :=
  ∀ (i : Instr) (s t : State) (d : Word), (∀ r q g, i ≠ .ldg r q g) → exec i s = .next t →
    exec i { s with wdata := d } = .next { t with wdata := d }

/-- R10, R140, R141, R160: the sign flag of the right operand has no effect on the status, on any digit, or on any
other register. -/
def Obligations.RightOperandSignHasNoEffect : Prop :=
  ∀ (s : State) (rd ra rb : RegNum) (b : Bool), rb ≠ ra →
    ∀ i ∈ [Instr.add rd ra rb, Instr.sub rd ra rb, Instr.mul rd ra rb],
      ∃ t t', exec i s = .next t ∧ exec i (signWrite s rb b) = .next t' ∧ t'.rsp = t.rsp ∧
        (∀ r, r ≠ rb → t'.reg r = t.reg r) ∧ ∀ q, (t'.reg rb).seq q = (t.reg rb).seq q

/-! ## The digit-group store -/

/-- R43: the address decoder divides by `DPG`, which is a shift by `log2(DPG)` and a cut to the low bits. -/
def Obligations.AddressDecodeIsShiftAndMask : Prop :=
  ∀ (c : Config) (p : Nat),
    groupOf c p = p / c.DPG ∧ offsetOf c p = p % c.DPG ∧
    groupOf c p = p >>> Nat.log2 c.DPG ∧ offsetOf c p = p &&& (2 ^ Nat.log2 c.DPG - 1) ∧ 2 ^ Nat.log2 c.DPG = c.DPG

/-- R45: DigitWrite replaces one 4-bit field of one word, by mask and or, and nothing else: not the other digits of the
group, not another group, not a sign flag, not another register. -/
def Obligations.DigitWriteChangesOneField : Prop :=
  ∀ (s : State) (r : RegNum) (q : Seq) (p v : Nat), s.wf → p < s.cfg.cnt q → v ≤ 9 →
    groupRead (digitWrite s r q p v) r q (p / s.cfg.DPG)
      = (groupRead s r q (p / s.cfg.DPG) &&& ~~~(0xF#64 <<< (4 * (p % s.cfg.DPG))))
        ||| (BitVec.ofNat 64 v <<< (4 * (p % s.cfg.DPG))) ∧
    digitRead (digitWrite s r q p v) r q p = v ∧
    (∀ r' q' g o, o < 16 → ¬ (r' = r ∧ q' = q ∧ g = p / s.cfg.DPG ∧ o = p % s.cfg.DPG) →
      extractField (groupRead (digitWrite s r q p v) r' q' g) o = extractField (groupRead s r' q' g) o) ∧
    (∀ r', ((digitWrite s r q p v).reg r').sign = (s.reg r').sign) ∧
    samePort s (digitWrite s r q p v) ∧ (digitWrite s r q p v).rsp = s.rsp

/-- R54: a group access and a digit access to the same storage see the same bits. -/
def Obligations.GroupAndDigitAccessSeeTheSameBits : Prop :=
  (∀ (s : State) (r : RegNum) (q : Seq) (p v : Nat), s.wf → p < s.cfg.cnt q → v ≤ 9 →
    extractField (groupRead (digitWrite s r q p v) r q (p / s.cfg.DPG)) (p % s.cfg.DPG) = v) ∧
  (∀ (s : State) (r : RegNum) (q : Seq) (g o : Nat) (w : Word), s.wf → g < s.cfg.gcnt q → o < s.cfg.DPG →
    g * s.cfg.DPG + o < s.cfg.cnt q →
    digitRead (groupWrite s r q g w) r q (g * s.cfg.DPG + o) = extractField w o)

/-- R100, R49: DGET reads a digit below the count; past the end it answers 0 in the fractional sequence and
`IndexOutOfRange` in the integer sequence; it changes nothing. -/
def Obligations.DgetReadsADigitOrPads : Prop :=
  ∀ (s : State) (r : RegNum) (p : Nat),
    (∀ q, p < s.cfg.cnt q → readsNat (.dget r q p) s
      (groupRead s r q (p / s.cfg.DPG) >>> (4 * (p % s.cfg.DPG)) &&& 0xF#64).toNat) ∧
    (s.cfg.FD ≤ p → readsNat (.dget r .F p) s 0) ∧
    (s.cfg.ID ≤ p → failsWith (.dget r .I p) s .indexOutOfRange)

/-- R101: DSET with an address and a digit in range writes that digit and nothing else. -/
def Obligations.DsetWritesOneDigit : Prop :=
  ∀ (s : State) (r : RegNum) (q : Seq) (p v : Nat), s.wf → p < s.cfg.cnt q → v ≤ 9 →
    ∃ t, runsOk (.dset r q p v) s t ∧ onlyReg r s t ∧ (t.reg r).sign = (s.reg r).sign ∧
      digitRead t r q p = v ∧
      ∀ q' g o, o < 16 → ¬ (q' = q ∧ g = p / s.cfg.DPG ∧ o = p % s.cfg.DPG) →
        extractField (groupRead t r q' g) o = extractField (groupRead s r q' g) o

/-- R101, R50, R194: DSET checks the address before the digit; either error writes nothing. -/
def Obligations.DsetChecksTheAddressFirst : Prop :=
  ∀ (s : State) (r : RegNum) (q : Seq) (p v : Nat),
    (s.cfg.cnt q ≤ p → failsWith (.dset r q p v) s .indexOutOfRange) ∧
    (p < s.cfg.cnt q → 10 ≤ v → failsWith (.dset r q p v) s .digitOutOfRange)

/-- R102, R126, R6: GCNT answers the least number of groups that hold the sequence's digits, DCNT the digit count; they
change nothing. -/
def Obligations.CountsAreTheParameters : Prop :=
  ∀ s : State,
    readsNat (.dcnt .I) s s.cfg.ID ∧ readsNat (.dcnt .F) s s.cfg.FD ∧ s.cfg.cnt .I = s.cfg.ID ∧ s.cfg.cnt .F = s.cfg.FD ∧
    ∀ q, readsNat (.gcnt q) s (s.cfg.gcnt q) ∧ s.cfg.cnt q ≤ s.cfg.gcnt q * s.cfg.DPG ∧
      ∀ m, s.cfg.cnt q ≤ m * s.cfg.DPG → s.cfg.gcnt q ≤ m

/-- R103: LDG with an existing group and legal write data writes that group and nothing else. -/
def Obligations.LdgWritesALegalGroup : Prop :=
  ∀ (s : State) (r : RegNum) (q : Seq) (g : Nat), s.wf → g < s.cfg.gcnt q →
    (∀ o < s.cfg.DPG, extractField s.wdata o ≤ 9) →
    (∀ o < s.cfg.DPG, s.cfg.cnt q ≤ g * s.cfg.DPG + o → extractField s.wdata o = 0) →
    ∃ t, runsOk (.ldg r q g) s t ∧ onlyReg r s t ∧ (t.reg r).sign = (s.reg r).sign ∧
      (∀ o < 16, extractField (groupRead t r q g) o = if o < s.cfg.DPG then extractField s.wdata o else 0) ∧
      ∀ q' g', ¬ (q' = q ∧ g' = g) → groupRead t r q' g' = groupRead s r q' g'

/-- R103, R194: LDG checks the group index, then the digits, then the spare nibbles; on any error it writes nothing. -/
def Obligations.LdgChecksIndexThenDigitsThenSpares : Prop :=
  ∀ (s : State) (r : RegNum) (q : Seq) (g : Nat),
    (s.cfg.gcnt q ≤ g → failsWith (.ldg r q g) s .indexOutOfRange) ∧
    (g < s.cfg.gcnt q → (∃ o < s.cfg.DPG, 10 ≤ extractField s.wdata o) →
      failsWith (.ldg r q g) s .digitOutOfRange) ∧
    (g < s.cfg.gcnt q → (∀ o < s.cfg.DPG, extractField s.wdata o ≤ 9) →
      (∃ o < s.cfg.DPG, s.cfg.cnt q ≤ g * s.cfg.DPG + o ∧ extractField s.wdata o ≠ 0) →
      failsWith (.ldg r q g) s .indexOutOfRange)

/-- R104: RDG answers the whole group, or `IndexOutOfRange` for a group that does not exist, in either sequence. -/
def Obligations.RdgReadsAnExistingGroup : Prop :=
  ∀ (s : State) (r : RegNum) (q : Seq) (g : Nat),
    (g < s.cfg.gcnt q → exec (.rdg r q g) s = .next { s with rsp := some ⟨.ok, groupRead s r q g⟩ }) ∧
    (s.cfg.gcnt q ≤ g → failsWith (.rdg r q g) s .indexOutOfRange)

/-- R52, R54, R75, R103, R104: what an accepted LDG wrote, RDG reads back: the `W` bits of the write data. -/
def Obligations.RdgReadsBackWhatLdgWrote : Prop :=
  ∀ (s t : State) (r : RegNum) (q : Seq) (g : Nat), s.wf → runsOk (.ldg r q g) s t →
    exec (.rdg r q g) t
      = .next { t with rsp := some ⟨.ok, BitVec.ofNat 64 (s.wdata.toNat % 2 ^ s.cfg.W.bits)⟩ }

/-! ## Decimal register commands -/

/-- R120: CLR gives the register its reset value and changes no other register. -/
def Obligations.ClrGivesTheResetValue : Prop :=
  ∀ (s : State) (r : RegNum), s.wf →
    ∃ t, runsOk (.clr r) s t ∧ onlyReg r s t ∧ t.reg r = (State.resetFor s.cfg).reg r ∧ mag t r = 0 ∧
      (t.reg r).sign = false ∧ ∀ q, ∀ g < s.cfg.gcnt q, groupRead t r q g = 0#64

/-- R121: MOV copies digits and sign flag; the source is unchanged, and CMP then finds the two equal. -/
def Obligations.MovCopiesAValueThatComparesEqual : Prop :=
  ∀ (s : State) (rd ra : RegNum),
    ∃ t, runsOk (.mov rd ra) s t ∧ t.reg rd = s.reg ra ∧ t.reg ra = s.reg ra ∧ onlyReg rd s t ∧
      readsNat (.cmp rd ra) t 0

/-- R122, R51: IGET reads integer position `sidx` or fractional position `FD + sidx`, and reports any index outside
`-FD .. ID-1`; it changes nothing. -/
def Obligations.IgetReadsBySignedIndex : Prop :=
  ∀ (s : State) (r : RegNum) (x : Int),
    (0 ≤ x → x < s.cfg.ID → readsNat (.iget r x) s (digitRead s r .I x.toNat)) ∧
    (x < 0 → -(s.cfg.FD : Int) ≤ x → readsNat (.iget r x) s (digitRead s r .F ((s.cfg.FD : Int) + x).toNat)) ∧
    ((s.cfg.ID : Int) ≤ x ∨ x < -(s.cfg.FD : Int) → failsWith (.iget r x) s .indexOutOfRange)

/-- R123: ISET with an index and a digit in range writes the digit the index names and nothing else. -/
def Obligations.IsetWritesBySignedIndex : Prop :=
  ∀ (s : State) (r : RegNum) (x : Int) (v : Nat) (q : Seq) (p : Nat), s.wf → v ≤ 9 →
    (q = .I ∧ 0 ≤ x ∧ x < s.cfg.ID ∧ x = p) ∨ (q = .F ∧ x < 0 ∧ -(s.cfg.FD : Int) ≤ x ∧ (s.cfg.FD : Int) + x = p) →
    ∃ t, runsOk (.iset r x v) s t ∧ onlyReg r s t ∧ (t.reg r).sign = (s.reg r).sign ∧ digitRead t r q p = v ∧
      ∀ q' g o, o < 16 → ¬ (q' = q ∧ g = p / s.cfg.DPG ∧ o = p % s.cfg.DPG) →
        extractField (groupRead t r q' g) o = extractField (groupRead s r q' g) o

/-- R123, R194: ISET is DSET at the position its index names; an index that names none is `IndexOutOfRange` whatever the
digit, and a digit above 9 at a valid index is `DigitOutOfRange`. -/
def Obligations.IsetIsDsetAtItsPosition : Prop :=
  ∀ (s : State) (r : RegNum) (x : Int) (v : Nat),
    (0 ≤ x → exec (.iset r x v) s = exec (.dset r .I x.toNat v) s) ∧
    (x < 0 → -(s.cfg.FD : Int) ≤ x → exec (.iset r x v) s = exec (.dset r .F ((s.cfg.FD : Int) + x).toNat v) s) ∧
    ((s.cfg.ID : Int) ≤ x ∨ x < -(s.cfg.FD : Int) → failsWith (.iset r x v) s .indexOutOfRange) ∧
    (-(s.cfg.FD : Int) ≤ x → x < s.cfg.ID → 10 ≤ v → failsWith (.iset r x v) s .digitOutOfRange)

/-- R125: SSET writes the sign flag and no digit. -/
def Obligations.SsetWritesTheSignAlone : Prop :=
  ∀ (s : State) (r : RegNum) (b : Bool),
    ∃ t, runsOk (.sset r b) s t ∧ onlyReg r s t ∧ (t.reg r).sign = b ∧ (t.reg r).ig = (s.reg r).ig ∧
      (t.reg r).fg = (s.reg r).fg

/-- R124: SGET answers the stored flag, also of a negative zero, and changes nothing. -/
def Obligations.SgetReadsTheSign : Prop :=
  ∀ (s : State) (r : RegNum), readsNat (.sget r) s (if (s.reg r).sign then 1 else 0)

/-! ## Adder and subtractor -/

/-- R142: below `10^N` ADD answers Ok and the destination holds the sum; otherwise it answers Overflow and changes
nothing; the final carry is the sum divided by `10^N`. The sign flag becomes a copy of the left operand's (R140). -/
def Obligations.AddLeavesTheSumOrOverflows : Prop :=
  ∀ (s : State) (rd ra rb : RegNum), s.wf →
    (mag s ra + mag s rb < 10 ^ s.cfg.N → ∃ t, runsOk (.add rd ra rb) s t ∧ mag t rd = mag s ra + mag s rb ∧
      (t.reg rd).sign = (s.reg ra).sign ∧ onlyReg rd s t) ∧
    (10 ^ s.cfg.N ≤ mag s ra + mag s rb → failsWith (.add rd ra rb) s .overflow) ∧
    (addChain ((s.reg ra).digits s.cfg) ((s.reg rb).digits s.cfg) 0).2 = (mag s ra + mag s rb) / 10 ^ s.cfg.N ∧
    (mag s ra + mag s rb) / 10 ^ s.cfg.N ≤ 1

/-- R143: SUB answers Ok and leaves the difference when the left magnitude is not below the right; otherwise it answers
Underflow and changes nothing. The sign flag becomes a copy of the left operand's (R141). -/
def Obligations.SubLeavesTheDifferenceOrUnderflows : Prop :=
  ∀ (s : State) (rd ra rb : RegNum), s.wf →
    (mag s rb ≤ mag s ra → ∃ t, runsOk (.sub rd ra rb) s t ∧ mag t rd = mag s ra - mag s rb ∧
      (t.reg rd).sign = (s.reg ra).sign ∧ onlyReg rd s t) ∧
    (mag s ra < mag s rb → failsWith (.sub rd ra rb) s .underflow)

/-- R144: ADD in either operand order gives the same status and the same digits (the sign flag written can differ). -/
def Obligations.AddCommutes : Prop :=
  ∀ (s : State) (rd ra rb : RegNum), ∃ t u, exec (.add rd ra rb) s = .next t ∧ exec (.add rd rb ra) s = .next u ∧
    u.rsp = t.rsp ∧ (u.reg rd).ig = (t.reg rd).ig ∧ (u.reg rd).fg = (t.reg rd).fg ∧
    ∀ r, r ≠ rd → u.reg r = t.reg r

/-- R144: `(a + b) + c` and `a + (b + c)` have the same digits when no step overflows. -/
def Obligations.AddIsAssociative : Prop :=
  ∀ (s t1 t2 u1 u2 : State) (a b c d : RegNum), s.wf → d ≠ a → d ≠ c →
    runsOk (.add d a b) s t1 → runsOk (.add d d c) t1 t2 →
    runsOk (.add d b c) s u1 → runsOk (.add d a d) u1 u2 →
    sameGroups t2 d u2 d

/-- R144: adding or subtracting zero leaves the left operand's digits, and `a - a` is zero with no Underflow. -/
def Obligations.ZeroIsTheIdentityAndSelfDifferenceIsZero : Prop :=
  (∀ (s : State) (rd ra rb : RegNum), s.wf → mag s rb = 0 →
    (∃ t, runsOk (.add rd ra rb) s t ∧ sameGroups s ra t rd) ∧
    (∃ t, runsOk (.sub rd ra rb) s t ∧ sameGroups s ra t rd)) ∧
  (∀ (s : State) (rd ra : RegNum), s.wf →
    ∃ t, runsOk (.sub rd ra ra) s t ∧ mag t rd = 0 ∧ (t.reg rd).sign = (s.reg ra).sign ∧
      ∀ q, ∀ g < s.cfg.gcnt q, groupRead t rd q g = 0#64)

/-! ## Multiplier -/

/-- R161: MUL answers Ok and leaves `R`, the sum of the partial products, when `R < 10^N`, and otherwise Overflow with
nothing changed; only the `FD` least significant digits of the left operand can lose anything. The sign flag becomes a
copy of the left operand's (R160). -/
def Obligations.MulLeavesTheSumOfPartialProducts : Prop :=
  ∀ (s : State) (rd ra rb : RegNum), s.wf →
    (mulSum s ra rb < 10 ^ s.cfg.N → ∃ t, runsOk (.mul rd ra rb) s t ∧ mag t rd = mulSum s ra rb ∧
      (t.reg rd).sign = (s.reg ra).sign ∧ onlyReg rd s t) ∧
    (10 ^ s.cfg.N ≤ mulSum s ra rb → failsWith (.mul rd ra rb) s .overflow) ∧
    ∀ i, s.cfg.FD ≤ i → 10 ^ s.cfg.FD ∣ combRead s ra i * 10 ^ i * mag s rb

/-- R162: the magnitude MUL leaves with status Ok is at most `E`, the exact product cut to `FD` digits (never rounded
up), and less by at most `max(FD - 1, 0)`; it is `E` when `FD <= 1`, when every partial product of a
fractional left digit is a multiple of `10^FD`, and so when all fractional digits of both operands are 0; on the rule's
`000.15 * 000.15` it is less. The closed form `R` is bounded in the same way also where MUL overflows. The rule's remark
on an `A * B` that loses no nonzero digit does not hold as written and is left out (log 12). -/
def Obligations.MulTruncationIsBounded : Prop :=
  (∀ (s t : State) (rd ra rb : RegNum), s.wf → runsOk (.mul rd ra rb) s t →
    mag t rd ≤ mulExact s ra rb ∧ mulExact s ra rb - mag t rd ≤ max (s.cfg.FD - 1) 0 ∧
    (s.cfg.FD ≤ 1 → mag t rd = mulExact s ra rb) ∧
    ((∀ i < s.cfg.FD, 10 ^ s.cfg.FD ∣ combRead s ra i * 10 ^ i * mag s rb) → mag t rd = mulExact s ra rb) ∧
    ((∀ i < s.cfg.FD, combRead s ra i = 0 ∧ combRead s rb i = 0) → mag t rd = mulExact s ra rb)) ∧
  (∃ s t : State, s.wf ∧ s.cfg.ID = 3 ∧ s.cfg.FD = 2 ∧ mag s 0 = 15 ∧ runsOk (.mul 1 0 0) s t ∧ mag t 1 = 1 ∧
    mulExact s 0 0 = 2) ∧
  (∀ (s : State) (ra rb : RegNum),
    mulSum s ra rb ≤ mulExact s ra rb ∧ mulExact s ra rb - mulSum s ra rb ≤ max (s.cfg.FD - 1) 0 ∧
    (s.cfg.FD ≤ 1 → mulSum s ra rb = mulExact s ra rb) ∧
    ((∀ i < s.cfg.FD, 10 ^ s.cfg.FD ∣ combRead s ra i * 10 ^ i * mag s rb) → mulSum s ra rb = mulExact s ra rb))

/-- R163: Overflow of MUL is decided by `R`; a reported Overflow means the real product does not fit; the converse can
fail, only with `FD >= 2` and `E <= 10^N + FD - 2`, and does in the spec's example `1.12 * 8.93`. -/
def Obligations.MulOverflowIsDecidedByTheSum : Prop :=
  (∀ (s : State) (rd ra rb : RegNum), s.wf →
    (failsWith (.mul rd ra rb) s .overflow ↔ 10 ^ s.cfg.N ≤ mulSum s ra rb) ∧
    (failsWith (.mul rd ra rb) s .overflow → 10 ^ s.cfg.N * 10 ^ s.cfg.FD ≤ mag s ra * mag s rb) ∧
    (10 ^ s.cfg.N ≤ mulExact s ra rb → mulSum s ra rb < 10 ^ s.cfg.N →
      (∃ t, runsOk (.mul rd ra rb) s t ∧ mag t rd = mulSum s ra rb) ∧
      1 ≤ mulExact s ra rb - mulSum s ra rb ∧ 2 ≤ s.cfg.FD ∧ mulExact s ra rb ≤ 10 ^ s.cfg.N + s.cfg.FD - 2)) ∧
  (∃ s t : State, s.wf ∧ s.cfg.ID = 1 ∧ s.cfg.FD = 2 ∧ mag s 0 = 112 ∧ mag s 1 = 893 ∧ mulExact s 0 1 = 1000 ∧
    runsOk (.mul 2 0 1) s t ∧ mag t 2 = 999)

/-- R165: MUL is not commutative in general (`000.15 * 000.07`), but gives the same status and digits in both orders
when neither product loses anything (`R = E` for both). -/
def Obligations.MulCommutesWhenNothingIsLost : Prop :=
  (∀ (s : State) (rd ra rb : RegNum), s.wf → mulSum s ra rb = mulExact s ra rb → mulSum s rb ra = mulExact s rb ra →
    ∃ t u, exec (.mul rd ra rb) s = .next t ∧ exec (.mul rd rb ra) s = .next u ∧ u.rsp = t.rsp ∧ sameGroups t rd u rd) ∧
  (∃ s t u : State, s.wf ∧ s.cfg.ID = 3 ∧ s.cfg.FD = 2 ∧ mag s 0 = 15 ∧ mag s 1 = 7 ∧ runsOk (.mul 2 0 1) s t ∧
    runsOk (.mul 2 1 0) s u ∧ mag t 2 = 0 ∧ mag u 2 = 1)

/-- `a * (b + c)` and `a * b + a * c` have the same digits when no command of either computation reports Overflow and no
partial product of the three multiplications drops a nonzero digit. This premise is narrower than the one R164 words,
`R = E` for the three multiplications, which is not enough: the narrower premise is this model's departure from the
rule's wording (DEDUCED, log 12). -/
def Obligations.MulDistributesWhenNothingIsDropped : Prop :=
  ∀ (s t1 t2 u1 u2 u3 : State) (a b c d e : RegNum), s.wf → d ≠ a → e ≠ a → e ≠ c → e ≠ d →
    runsOk (.add d b c) s t1 → runsOk (.mul d a d) t1 t2 →
    runsOk (.mul e a b) s u1 → runsOk (.mul d a c) u1 u2 → runsOk (.add d e d) u2 u3 →
    dropsNoDigit t1 a d → dropsNoDigit s a b → dropsNoDigit s a c →
    sameGroups t2 d u3 d

/-- R164's premise in the form `R = E` is not enough (a point on which this model's author departs from the rule's
wording, log 12): with `FD = 1` `R = E` holds always, and `0.5 * (0.1 + 0.1)` differs from `0.5 * 0.1 + 0.5 * 0.1`. -/
def Obligations.EqualToTruncatedProductIsNotEnoughToDistribute : Prop :=
  ∃ s t1 t2 u1 u2 u3 : State, s.wf ∧ s.cfg.FD = 1 ∧
    runsOk (.add 3 1 2) s t1 ∧ runsOk (.mul 3 0 3) t1 t2 ∧
    runsOk (.mul 4 0 1) s u1 ∧ runsOk (.mul 5 0 2) u1 u2 ∧ runsOk (.add 4 4 5) u2 u3 ∧
    mulSum t1 0 3 = mulExact t1 0 3 ∧ mulSum s 0 1 = mulExact s 0 1 ∧ mulSum s 0 2 = mulExact s 0 2 ∧
    mag t2 3 ≠ mag u3 4

/-! ## Comparator and division -/

/-- R176: CMP answers 1, 2 or 0 exactly when the left value is below, above or equal to the right one, the value being
signed and both zeros 0; it changes nothing. -/
def Obligations.CmpIsTheOrderOfTheValues : Prop :=
  ∀ (s : State) (ra rb : RegNum), s.wf →
    ∃ k, readsNat (.cmp ra rb) s k ∧ k ≤ 2 ∧ (k = 1 ↔ val s ra < val s rb) ∧ (k = 2 ↔ val s rb < val s ra) ∧
      (k = 0 ↔ val s ra = val s rb)

/-- R93: the six relations a host derives from the CMP code are the relations of the values. -/
def Obligations.RelationsFollowFromTheCmpCode : Prop :=
  ∀ (s : State) (ra rb : RegNum), s.wf →
    ∃ k, readsNat (.cmp ra rb) s k ∧
      (Relation.equal.holds k = true ↔ val s ra = val s rb) ∧
      (Relation.notEqual.holds k = true ↔ val s ra ≠ val s rb) ∧
      (Relation.less.holds k = true ↔ val s ra < val s rb) ∧
      (Relation.lessEqual.holds k = true ↔ val s ra ≤ val s rb) ∧
      (Relation.greater.holds k = true ↔ val s rb < val s ra) ∧
      (Relation.greaterEqual.holds k = true ↔ val s rb ≤ val s ra)

/-- R178: DIV answers `DivisionUnspecified` for every operand value and changes nothing. -/
def Obligations.DivIsAlwaysUnspecified : Prop :=
  ∀ (s : State) (rd ra rb : RegNum), failsWith (.div rd ra rb) s .divisionUnspecified
end

