-- ==== Sys2Proof/Laws/Fields.lean ====
section
/-! SUPPORT. The bit-field extract and insert of a word (20_memory.md R41, R44, R45, R54). -/

namespace Sys2Proof.Machine
theorem extractField_eq_div (w : Word) (o : Nat) : extractField w o = w.toNat / 2 ^ (4 * o) % 16 := by
  simp only [extractField, BitVec.toNat_and, BitVec.toNat_ushiftRight, BitVec.toNat_ofNat, Nat.shiftRight_eq_div_pow]
  rw [show (15 % 2 ^ 64 : Nat) = 2 ^ 4 - 1 by decide, Nat.and_two_pow_sub_one_eq_mod]

theorem extractField_eq_extract (w : Word) (o : Nat) : extractField w o = (w.extractLsb' (4 * o) 4).toNat := by
  rw [extractField_eq_div, BitVec.extractLsb'_toNat, Nat.shiftRight_eq_div_pow]

theorem extractField_insertField (w : Word) (o o' v : Nat) (ho : o < 16) (ho' : o' < 16) (hv : v < 16) :
    extractField (insertField w o v) o' = if o' = o then v else extractField w o' := by
  have key : (insertField w o v).extractLsb' (4 * o') 4
      = if o' = o then BitVec.ofNat 4 v else w.extractLsb' (4 * o') 4 := by
    apply BitVec.eq_of_getLsbD_eq
    intro j hj
    have h15 : ∀ n, (0xF#64).getLsbD n = decide (n < 4) := by
      intro n
      by_cases hn : n < 64
      · revert n; decide
      · rw [BitVec.getLsbD_of_ge _ _ (by omega)]; simp; omega
    split
    · subst o'
      simp only [insertField, BitVec.getLsbD_extractLsb', BitVec.getLsbD_or, BitVec.getLsbD_and, BitVec.getLsbD_not, BitVec.getLsbD_shiftLeft, h15, BitVec.getLsbD_ofNat]
      have h1 : 4 * o + j < 64 := by omega
      have h2 : ¬ (4 * o + j < 4 * o) := by omega
      have h3 : 4 * o + j - 4 * o = j := by omega
      have h4 : j < 64 := by omega
      simp [h1, h2, h3, h4, hj]
    · rename_i hne
      simp only [insertField, BitVec.getLsbD_extractLsb', BitVec.getLsbD_or, BitVec.getLsbD_and, BitVec.getLsbD_not, BitVec.getLsbD_shiftLeft, h15, BitVec.getLsbD_ofNat]
      have h1 : 4 * o' + j < 64 := by omega
      rcases Nat.lt_or_gt_of_ne hne with hlt | hgt
      · have h2 : 4 * o' + j < 4 * o := by omega
        simp [h1, h2, hj]
      · have h2 : ¬ (4 * o' + j < 4 * o) := by omega
        have h3 : ¬ (4 * o' + j - 4 * o < 4) := by omega
        have h4 : v.testBit (4 * o' + j - 4 * o) = false := by
          apply Nat.testBit_lt_two_pow
          calc v < 2 ^ 4 := hv
            _ ≤ _ := Nat.pow_le_pow_right (by decide) (by omega)
        simp [h1, h2, h3, h4, hj]
  rw [extractField_eq_extract, key, extractField_eq_extract]
  split
  · rw [BitVec.toNat_ofNat, Nat.mod_eq_of_lt hv]
  · rfl

theorem extractField_lt (w : Word) (o : Nat) : extractField w o < 16 := by
  rw [extractField_eq_div]; exact Nat.mod_lt _ (by decide)

@[simp] theorem extractField_zero (o : Nat) : extractField 0#64 o = 0 := by
  simp [extractField_eq_div]

/-- Past the container every field reads 0. -/
theorem extractField_of_le (w : Word) (o : Nat) (ho : 16 ≤ o) : extractField w o = 0 := by
  rw [extractField_eq_div, Nat.div_eq_of_lt, Nat.zero_mod]
  exact lt_of_lt_of_le w.isLt (Nat.pow_le_pow_right (by decide) (by omega))

/-- A word is its sixteen fields. -/
theorem word_eq_of_extractField (w w' : Word) (h : ∀ o < 16, extractField w o = extractField w' o) : w = w' := by
  apply BitVec.eq_of_getLsbD_eq
  intro n hn
  have hf := h (n / 4) (by omega)
  rw [extractField_eq_extract, extractField_eq_extract] at hf
  have hb := congrArg (fun x : BitVec 4 => x.getLsbD (n % 4)) (BitVec.eq_of_toNat_eq hf)
  have h4 : n % 4 < 4 := Nat.mod_lt _ (by decide)
  have hd : 4 * (n / 4) + n % 4 = n := Nat.div_add_mod n 4
  simpa [BitVec.getLsbD_extractLsb', h4, hd] using hb

/-- Inserting the value a field already holds changes nothing. -/
theorem insertField_extractField (w : Word) (o : Nat) (ho : o < 16) : insertField w o (extractField w o) = w := by
  apply word_eq_of_extractField
  intro o' ho'
  rw [extractField_insertField w o o' _ ho ho' (extractField_lt w o)]
  split
  · subst o'; rfl
  · rfl

/-- The wires of a `W`-bit port carry the fields below `W / 4` and nothing above. -/
theorem extractField_wireWord (c : Config) (w : Word) (o : Nat) :
    extractField (wireWord c w) o = if o < c.DPG then extractField w o else 0 := by
  have hW : c.W.bits = 4 * c.DPG := by cases h : c.W <;> simp [Config.DPG, h, WordWidth.bits]
  have hle : w.toNat % 2 ^ c.W.bits < 2 ^ 64 := lt_of_le_of_lt (Nat.mod_le _ _) w.isLt
  rw [extractField_eq_div, extractField_eq_div, wireWord, BitVec.toNat_ofNat, Nat.mod_eq_of_lt hle, hW]
  split
  · rename_i ho
    have e : 2 ^ (4 * c.DPG) = 2 ^ (4 * o) * 2 ^ (4 * (c.DPG - o)) := by rw [← pow_add]; congr 1; omega
    rw [e, Nat.mod_mul_right_div_self]
    have e2 : (2 : Nat) ^ (4 * (c.DPG - o)) = 16 * 2 ^ (4 * (c.DPG - o - 1)) := by
      rw [show (16 : Nat) = 2 ^ 4 by decide, ← pow_add]; congr 1; omega
    rw [e2, Nat.mod_mul_right_mod]
  · rename_i ho
    rw [Nat.div_eq_of_lt, Nat.zero_mod]
    exact lt_of_lt_of_le (Nat.mod_lt _ (by positivity)) (Nat.pow_le_pow_right (by decide) (by omega))

end Sys2Proof.Machine
end

