-- ==== Sys2Proof/Laws/State.lean ====
section
/-! SUPPORT. One lemma for each field and each update of State and of a register, so that no proof unfolds a record
update. -/

namespace Sys2Proof.Machine

/-! ## Register updates of the state -/

@[simp] theorem setReg_cfg (s : State) (r : RegNum) (d : DReg) : (s.setReg r d).cfg = s.cfg := rfl
@[simp] theorem setReg_hasReset (s : State) (r : RegNum) (d : DReg) : (s.setReg r d).hasReset = s.hasReset := rfl
@[simp] theorem setReg_wdata (s : State) (r : RegNum) (d : DReg) : (s.setReg r d).wdata = s.wdata := rfl
@[simp] theorem setReg_host (s : State) (r : RegNum) (d : DReg) : (s.setReg r d).host = s.host := rfl
@[simp] theorem setReg_rsp (s : State) (r : RegNum) (d : DReg) : (s.setReg r d).rsp = s.rsp := rfl

/-- Reading a register after a register write (R26). -/
theorem reg_setReg (s : State) (r r' : RegNum) (d : DReg) :
    (s.setReg r d).reg r' = if r' = r then d else s.reg r' := by
  unfold State.reg State.setReg
  simp only [Vector.getElem_set, Fin.ext_iff, eq_comm]

@[simp] theorem reg_setReg_same (s : State) (r : RegNum) (d : DReg) : (s.setReg r d).reg r = d := by
  simp [reg_setReg]

theorem reg_setReg_other (s : State) (r r' : RegNum) (d : DReg) (h : r' ≠ r) : (s.setReg r d).reg r' = s.reg r' := by
  simp [reg_setReg, h]

/-- Writing a register's own value changes nothing (R121: `MOV Dd, Dd` changes nothing). -/
@[simp] theorem setReg_self (s : State) (r : RegNum) : s.setReg r (s.reg r) = s := by
  unfold State.setReg State.reg; simp

/-- Two register files that agree on every register are equal. -/
theorem regs_eq_of_reg_eq (s t : State) (h : ∀ r, t.reg r = s.reg r) : t.regs = s.regs := by
  apply Vector.ext
  intro i hi
  exact h ⟨i, hi⟩

@[simp] theorem resetFor_reg (c : Config) (r : RegNum) : (State.resetFor c).reg r = DReg.zero c := by
  unfold State.reg State.resetFor; simp

@[simp] theorem resetFor_cfg (c : Config) : (State.resetFor c).cfg = c := rfl
@[simp] theorem resetFor_hasReset (c : Config) : (State.resetFor c).hasReset = true := rfl
@[simp] theorem resetFor_rsp (c : Config) : (State.resetFor c).rsp = none := rfl
@[simp] theorem resetFor_host (c : Config) : (State.resetFor c).host = [] := rfl
@[simp] theorem resetFor_wdata (c : Config) : (State.resetFor c).wdata = 0#64 := rfl

/-! ## The response port -/

@[simp] theorem withRsp_reg (s : State) (x : Option Response) (r : RegNum) : ({ s with rsp := x } : State).reg r = s.reg r := rfl

theorem respond_eq (st : Status) (data : Word) (s : State) :
    respond st data s = .next { s with rsp := some ⟨st, data⟩ } := rfl
theorem respondOk_eq (s : State) : respondOk s = .next { s with rsp := some ⟨.ok, 0#64⟩ } := rfl
theorem respondNat_eq (n : Nat) (s : State) :
    respondNat n s = .next { s with rsp := some ⟨.ok, BitVec.ofNat 64 n⟩ } := rfl
/-- Taking an exception writes the response port and nothing else (R195, R196). -/
theorem raise_eq (st : Status) (s : State) : raise st s = .next { s with rsp := some ⟨st, 0#64⟩ } := rfl
theorem illegalCommand_eq (s : State) :
    illegalCommand s = .next { s with rsp := some ⟨.illegalCommand, 0#64⟩ } := rfl

/-! ## The state in which an accepted command runs, and reset -/

@[simp] theorem acceptCommand_cfg (s : State) (w : Word) (l : List HostAction) : (acceptCommand s w l).cfg = s.cfg := rfl
@[simp] theorem acceptCommand_hasReset (s : State) (w : Word) (l : List HostAction) :
    (acceptCommand s w l).hasReset = s.hasReset := rfl
@[simp] theorem acceptCommand_regs (s : State) (w : Word) (l : List HostAction) : (acceptCommand s w l).regs = s.regs := rfl
@[simp] theorem acceptCommand_reg (s : State) (w : Word) (l : List HostAction) (r : RegNum) :
    (acceptCommand s w l).reg r = s.reg r := rfl
@[simp] theorem acceptCommand_wdata (s : State) (w : Word) (l : List HostAction) : (acceptCommand s w l).wdata = w := rfl
@[simp] theorem acceptCommand_host (s : State) (w : Word) (l : List HostAction) : (acceptCommand s w l).host = l := rfl
@[simp] theorem acceptCommand_rsp (s : State) (w : Word) (l : List HostAction) : (acceptCommand s w l).rsp = none := rfl

@[simp] theorem applyReset_cfg (s : State) : (applyReset s).cfg = s.cfg := rfl
@[simp] theorem applyReset_hasReset (s : State) : (applyReset s).hasReset = true := rfl
@[simp] theorem applyReset_reg (s : State) (r : RegNum) : (applyReset s).reg r = DReg.zero s.cfg := by
  unfold applyReset State.reg State.resetFor; simp
@[simp] theorem applyReset_rsp (s : State) : (applyReset s).rsp = none := rfl
@[simp] theorem applyReset_host (s : State) : (applyReset s).host = s.host := rfl
@[simp] theorem applyReset_wdata (s : State) : (applyReset s).wdata = 0#64 := rfl

/-! ## One register -/

@[simp] theorem seq_I (d : DReg) : d.seq .I = d.ig := rfl
@[simp] theorem seq_F (d : DReg) : d.seq .F = d.fg := rfl
@[simp] theorem setSeq_sign (d : DReg) (q : Seq) (ws : List Word) : (d.setSeq q ws).sign = d.sign := by cases q <;> rfl
@[simp] theorem seq_setSeq_same (d : DReg) (q : Seq) (ws : List Word) : (d.setSeq q ws).seq q = ws := by cases q <;> rfl
theorem seq_setSeq (d : DReg) (q q' : Seq) (ws : List Word) :
    (d.setSeq q ws).seq q' = if q' = q then ws else d.seq q' := by cases q <;> cases q' <;> rfl
@[simp] theorem setGroup_sign (d : DReg) (q : Seq) (g : Nat) (w : Word) : (d.setGroup q g w).sign = d.sign :=
  setSeq_sign d q _
@[simp] theorem setDigit_sign (c : Config) (d : DReg) (q : Seq) (p v : Nat) : (d.setDigit c q p v).sign = d.sign :=
  setGroup_sign d q _ _
@[simp] theorem setComb_sign (c : Config) (d : DReg) (k v : Nat) : (d.setComb c k v).sign = d.sign := by
  unfold DReg.setComb; split <;> simp
@[simp] theorem setCombs_sign (c : Config) (d : DReg) (k : Nat) (vs : List Nat) : (d.setCombs c k vs).sign = d.sign := by
  induction vs generalizing d k with
  | nil => rfl
  | cons v rest ih => rw [DReg.setCombs, ih, setComb_sign]
@[simp] theorem withSign_seq (d : DReg) (q : Seq) (b : Bool) : ({ d with sign := b } : DReg).seq q = d.seq q := by
  cases q <;> rfl
@[simp] theorem withSign_group (d : DReg) (q : Seq) (g : Nat) (b : Bool) :
    ({ d with sign := b } : DReg).group q g = d.group q g := by unfold DReg.group; simp
@[simp] theorem withSign_digit (c : Config) (d : DReg) (q : Seq) (p : Nat) (b : Bool) :
    ({ d with sign := b } : DReg).digit c q p = d.digit c q p := by unfold DReg.digit; simp
@[simp] theorem withSign_comb (c : Config) (d : DReg) (k : Nat) (b : Bool) :
    ({ d with sign := b } : DReg).comb c k = d.comb c k := by unfold DReg.comb; simp

end Sys2Proof.Machine
end

