-- ==== Sys2Proof/Laws/Digits.lean ====
section
/-! SUPPORT. The address decoder, group and digit reads after writes, and the combined digits (20_memory.md R43 to R54). -/

namespace Sys2Proof.Machine

/-! ## Sizes and the address decoder -/

theorem DPG_pos (c : Config) : 0 < c.DPG := by cases h : c.W <;> simp [Config.DPG, h, WordWidth.bits]
theorem DPG_le (c : Config) : c.DPG ≤ 16 := by cases h : c.W <;> simp [Config.DPG, h, WordWidth.bits]
theorem offsetOf_lt (c : Config) (p : Nat) : offsetOf c p < c.DPG := Nat.mod_lt _ (DPG_pos c)
theorem offsetOf_lt_16 (c : Config) (p : Nat) : offsetOf c p < 16 := lt_of_lt_of_le (offsetOf_lt c p) (DPG_le c)
theorem groupOf_offsetOf (c : Config) (p : Nat) : groupOf c p * c.DPG + offsetOf c p = p := by
  rw [Nat.mul_comm]; exact Nat.div_add_mod p c.DPG

theorem gcnt_eq (c : Config) (q : Seq) : c.gcnt q = ceilDiv (c.cnt q) c.DPG := by cases q <;> rfl

/-- The groups of a sequence hold all its digits. -/
theorem groupOf_lt_gcnt (c : Config) (q : Seq) (p : Nat) (hp : p < c.cnt q) : groupOf c p < c.gcnt q := by
  rw [gcnt_eq, groupOf, ceilDiv, Nat.lt_iff_add_one_le, Nat.le_div_iff_mul_le (DPG_pos c)]
  have h1 := Nat.div_mul_le_self p c.DPG
  have h2 := DPG_pos c
  rw [Nat.add_mul]; omega

/-- A position is found by its group and offset, and by no other. -/
theorem position_unique (c : Config) (p p' : Nat) (hg : groupOf c p = groupOf c p') (ho : offsetOf c p = offsetOf c p') :
    p = p' := by rw [← groupOf_offsetOf c p, ← groupOf_offsetOf c p', hg, ho]

/-- The position of a field given by group and offset decodes back to them. -/
theorem groupOf_mul_add (c : Config) (g o : Nat) (ho : o < c.DPG) : groupOf c (g * c.DPG + o) = g := by
  rw [groupOf, Nat.mul_comm, Nat.mul_add_div (DPG_pos c), Nat.div_eq_of_lt ho, Nat.add_zero]
theorem offsetOf_mul_add (c : Config) (g o : Nat) (ho : o < c.DPG) : offsetOf c (g * c.DPG + o) = o := by
  rw [offsetOf, Nat.mul_comm, Nat.mul_add_mod, Nat.mod_eq_of_lt ho]

/-! ## Groups -/

theorem group_setGroup (d : DReg) (q q' : Seq) (g g' : Nat) (w : Word) (hg : g < (d.seq q).length) :
    (d.setGroup q g w).group q' g' = if q' = q ∧ g' = g then w else d.group q' g' := by
  unfold DReg.group DReg.setGroup
  rw [seq_setSeq]
  by_cases hq : q' = q
  · subst q'
    by_cases h : g' = g
    · subst g'; simp [List.getD_eq_getElem?_getD, hg]
    · simp [List.getD_eq_getElem?_getD, h, Ne.symm h]
  · simp [hq]

@[simp] theorem length_setGroup (d : DReg) (q q' : Seq) (g : Nat) (w : Word) :
    ((d.setGroup q g w).seq q').length = (d.seq q').length := by
  unfold DReg.setGroup
  rw [seq_setSeq]
  split
  · rename_i h; subst h; simp
  · rfl

/-! ## Digits -/

@[simp] theorem length_setDigit (c : Config) (d : DReg) (q q' : Seq) (p v : Nat) :
    ((d.setDigit c q p v).seq q').length = (d.seq q').length := length_setGroup d q q' _ _

/-- One field changes and no other, in its group as elsewhere (R45). -/
theorem field_setDigit (c : Config) (d : DReg) (q q' : Seq) (p v g o : Nat) (hg : groupOf c p < (d.seq q).length)
    (ho : o < 16) (hv : v < 16) :
    extractField ((d.setDigit c q p v).group q' g) o
      = if q' = q ∧ g = groupOf c p ∧ o = offsetOf c p then v else extractField (d.group q' g) o := by
  unfold DReg.setDigit
  rw [group_setGroup d q q' _ g _ hg]
  by_cases h : q' = q ∧ g = groupOf c p
  · obtain ⟨rfl, rfl⟩ := h
    simp only [and_self, if_true, true_and]
    exact extractField_insertField _ _ _ _ (offsetOf_lt_16 c p) ho hv
  · have h' : ¬ (q' = q ∧ g = groupOf c p ∧ o = offsetOf c p) := fun x => h ⟨x.1, x.2.1⟩
    rw [if_neg h, if_neg h']

/-- Reading a digit after writing one (R45, R54). -/
theorem digit_setDigit (c : Config) (d : DReg) (q q' : Seq) (p p' v : Nat) (hg : groupOf c p < (d.seq q).length)
    (hv : v < 16) :
    (d.setDigit c q p v).digit c q' p' = if q' = q ∧ p' = p then v else d.digit c q' p' := by
  unfold DReg.digit
  rw [field_setDigit c d q q' p v _ _ hg (offsetOf_lt_16 c p') hv]
  have e : (q' = q ∧ groupOf c p' = groupOf c p ∧ offsetOf c p' = offsetOf c p) ↔ (q' = q ∧ p' = p) :=
    ⟨fun h => ⟨h.1, position_unique c p' p h.2.1 h.2.2⟩, fun h => ⟨h.1, by rw [h.2], by rw [h.2]⟩⟩
  by_cases h : q' = q ∧ p' = p
  · rw [if_pos h, if_pos (e.mpr h)]
  · rw [if_neg h, if_neg (fun x => h (e.mp x))]

/-! ## Combined digits (R47) -/

/-- Each sequence has room for its digits: the length part of well-formedness. -/
abbrev DReg.sized (c : Config) (d : DReg) : Prop := ∀ q, (d.seq q).length = c.gcnt q

theorem sized_of_wf (c : Config) (d : DReg) (h : d.wf c) : d.sized c := by
  intro q; cases q
  · exact h.1.1
  · exact h.2.1

@[simp] theorem length_setComb (c : Config) (d : DReg) (k v : Nat) (q : Seq) :
    ((d.setComb c k v).seq q).length = (d.seq q).length := by
  unfold DReg.setComb; split <;> simp

@[simp] theorem length_setCombs (c : Config) (d : DReg) (k : Nat) (vs : List Nat) (q : Seq) :
    ((d.setCombs c k vs).seq q).length = (d.seq q).length := by
  induction vs generalizing d k with
  | nil => rfl
  | cons v rest ih => rw [DReg.setCombs, ih, length_setComb]

theorem comb_setComb (c : Config) (d : DReg) (k k' v : Nat) (hd : d.sized c) (hk : k < c.N) (hv : v < 16) :
    (d.setComb c k v).comb c k' = if k' = k then v else d.comb c k' := by
  have hN : c.N = c.ID + c.FD := rfl
  unfold DReg.setComb DReg.comb
  by_cases h : k < c.FD
  · have hg : groupOf c k < (d.seq .F).length := by rw [hd]; exact groupOf_lt_gcnt c .F k h
    simp only [h, if_true]
    by_cases h' : k' < c.FD
    · simp only [h', if_true, digit_setDigit c d .F .F k k' v hg hv, true_and]
    · have hne : k' ≠ k := by omega
      simp only [h', if_false, hne, digit_setDigit c d .F .I k _ v hg hv]
      simp
  · have hg : groupOf c (k - c.FD) < (d.seq .I).length := by
      rw [hd]; exact groupOf_lt_gcnt c .I _ (by show k - c.FD < c.ID; omega)
    simp only [h, if_false]
    by_cases h' : k' < c.FD
    · have hne : k' ≠ k := by omega
      simp only [h', if_true, hne, digit_setDigit c d .I .F _ _ v hg hv]
      simp
    · simp only [h', if_false, digit_setDigit c d .I .I _ _ v hg hv, true_and]
      have e : (k' - c.FD = k - c.FD) ↔ k' = k := by omega
      simp only [e]

theorem setComb_sized (c : Config) (d : DReg) (k v : Nat) (hd : d.sized c) : (d.setComb c k v).sized c := by
  intro q; rw [length_setComb, hd]

/-- Reading a combined digit after a run of digit writes. -/
theorem comb_setCombs (c : Config) (d : DReg) (k k' : Nat) (vs : List Nat) (hd : d.sized c) (hk : k + vs.length ≤ c.N)
    (hv : ∀ v ∈ vs, v < 16) :
    (d.setCombs c k vs).comb c k' = if k ≤ k' ∧ k' < k + vs.length then vs.getD (k' - k) 0 else d.comb c k' := by
  induction vs generalizing d k with
  | nil =>
    have h : ¬ (k ≤ k' ∧ k' < k + ([] : List Nat).length) := by simp
    rw [if_neg h, DReg.setCombs]
  | cons v rest ih =>
    simp only [List.length_cons] at hk
    rw [DReg.setCombs, ih (d.setComb c k v) (k + 1) (setComb_sized c d k v hd) (by omega)
      (fun x hx => hv x (List.mem_cons_of_mem _ hx)),
      comb_setComb c d k k' v hd (by omega) (hv v List.mem_cons_self)]
    by_cases h1 : k' = k
    · subst h1; simp
    · by_cases h2 : k ≤ k' ∧ k' < k + (v :: rest).length
      · have h3 : k + 1 ≤ k' ∧ k' < k + 1 + rest.length := by simp only [List.length_cons] at h2; omega
        have h4 : k' - k = (k' - (k + 1)) + 1 := by omega
        rw [if_pos h2, if_pos h3, h4, List.getD_cons_succ]
      · have h3 : ¬ (k + 1 ≤ k' ∧ k' < k + 1 + rest.length) := by simp only [List.length_cons] at h2; omega
        rw [if_neg h2, if_neg h3, if_neg h1]

/-! ## The digit list of a register -/

@[simp] theorem length_digits (c : Config) (d : DReg) : (d.digits c).length = c.N := by simp [DReg.digits]

theorem digits_getD (c : Config) (d : DReg) (k : Nat) (hk : k < c.N) : (d.digits c).getD k 0 = d.comb c k := by
  simp [DReg.digits, List.getD_eq_getElem?_getD, hk]

theorem mem_digits (c : Config) (d : DReg) (v : Nat) : v ∈ d.digits c ↔ ∃ k < c.N, d.comb c k = v := by
  simp [DReg.digits]

/-- After a full commit the digits are the committed list. -/
theorem digits_setCombs (c : Config) (d : DReg) (vs : List Nat) (hd : d.sized c) (hl : vs.length = c.N)
    (hv : ∀ v ∈ vs, v < 16) : (d.setCombs c 0 vs).digits c = vs := by
  apply List.ext_getElem (by simp [hl])
  intro k h1 h2
  have hk : k < c.N := by simpa using h1
  simp only [DReg.digits, List.getElem_map, List.getElem_range]
  rw [comb_setCombs c d 0 k vs hd (by omega) hv, if_pos ⟨Nat.zero_le _, by omega⟩]
  simp [List.getD_eq_getElem?_getD, h2]

end Sys2Proof.Machine
end

