-- ==== Sys2Proof/Laws/Wf.lean ====
section
/-! SUPPORT. Every store operation keeps the form of a register: the group counts, the digit invariant and the
spare-nibble invariant (10_state.md R24, R25). -/

namespace Sys2Proof.Machine

/-- Well-formedness, sequence by sequence. -/
theorem wf_iff (c : Config) (d : DReg) : d.wf c ↔ ∀ q, seqLegal c q (d.seq q) :=
  ⟨fun h q => by cases q; exacts [h.1, h.2], fun h => ⟨h .I, h .F⟩⟩

theorem groupLegal_of_wf (c : Config) (d : DReg) (h : d.wf c) (q : Seq) (g : Nat) (hg : g < c.gcnt q) :
    groupLegal c q g (d.group q g) := ((wf_iff c d).mp h q).2 g hg

/-- Every digit of a well-formed register is 0 to 9 (R24). -/
theorem digit_le_nine (c : Config) (d : DReg) (h : d.wf c) (q : Seq) (p : Nat) (hp : p < c.cnt q) :
    d.digit c q p ≤ 9 := by
  have hl := groupLegal_of_wf c d h q _ (groupOf_lt_gcnt c q p hp) (offsetOf c p) (offsetOf_lt_16 c p)
  rwa [if_pos ⟨offsetOf_lt c p, by rw [groupOf_offsetOf]; exact hp⟩] at hl

/-- Every spare nibble of a well-formed register is 0 (R25). -/
theorem spare_eq_zero (c : Config) (d : DReg) (h : d.wf c) (q : Seq) (g o : Nat) (hg : g < c.gcnt q) (ho : o < 16)
    (hs : ¬ (o < c.DPG ∧ g * c.DPG + o < c.cnt q)) : extractField (d.group q g) o = 0 := by
  have hl := groupLegal_of_wf c d h q g hg o ho
  rw [if_neg hs] at hl
  omega

theorem comb_le_nine (c : Config) (d : DReg) (h : d.wf c) (k : Nat) (hk : k < c.N) : d.comb c k ≤ 9 := by
  have hN : c.N = c.ID + c.FD := rfl
  unfold DReg.comb
  split
  · exact digit_le_nine c d h .F k (by assumption)
  · exact digit_le_nine c d h .I _ (by show k - c.FD < c.ID; omega)

theorem digits_le_nine (c : Config) (d : DReg) (h : d.wf c) : ∀ v ∈ d.digits c, v ≤ 9 := by
  intro v hv
  obtain ⟨k, hk, rfl⟩ := (mem_digits c d v).mp hv
  exact comb_le_nine c d h k hk

/-- The default-constructed value is well formed (R31). -/
theorem zero_wf (c : Config) : (DReg.zero c).wf c := by
  have h : ∀ n, ∀ g, (List.replicate n (0#64 : Word)).getD g 0#64 = 0#64 := by
    intro n g; simp [List.getD_eq_getElem?_getD, List.getElem?_replicate]; split <;> rfl
  refine ⟨⟨List.length_replicate, fun g _ o _ => ?_⟩, ⟨List.length_replicate, fun g _ o _ => ?_⟩⟩
  · show extractField ((List.replicate c.IGN 0#64).getD g 0#64) o ≤ _
    rw [h, extractField_zero]; exact Nat.zero_le _
  · show extractField ((List.replicate c.FGN 0#64).getD g 0#64) o ≤ _
    rw [h, extractField_zero]; exact Nat.zero_le _

/-- Replacing a group by a legal one keeps the form (R52, R103). -/
theorem setGroup_wf (c : Config) (d : DReg) (h : d.wf c) (q : Seq) (g : Nat) (w : Word) (hg : g < c.gcnt q)
    (hw : groupLegal c q g w) : (d.setGroup q g w).wf c := by
  have hs := sized_of_wf c d h
  rw [wf_iff]
  intro q'
  refine ⟨by rw [length_setGroup]; exact hs q', fun g' hg' => ?_⟩
  show groupLegal c q' g' ((d.setGroup q g w).group q' g')
  rw [group_setGroup d q q' g g' w (by rw [hs]; exact hg)]
  by_cases e : q' = q ∧ g' = g
  · obtain ⟨rfl, rfl⟩ := e
    rw [if_pos ⟨rfl, rfl⟩]; exact hw
  · rw [if_neg e]; exact groupLegal_of_wf c d h q' g' hg'

/-- Replacing a digit by a digit keeps the form (R45, R50). -/
theorem setDigit_wf (c : Config) (d : DReg) (h : d.wf c) (q : Seq) (p v : Nat) (hp : p < c.cnt q) (hv : v ≤ 9) :
    (d.setDigit c q p v).wf c := by
  have hs := sized_of_wf c d h
  have hgp := groupOf_lt_gcnt c q p hp
  rw [wf_iff]
  intro q'
  refine ⟨by rw [length_setDigit]; exact hs q', fun g hg o ho => ?_⟩
  show extractField ((d.setDigit c q p v).group q' g) o ≤ _
  rw [field_setDigit c d q q' p v g o (by rw [hs]; exact hgp) ho (by omega)]
  by_cases e : q' = q ∧ g = groupOf c p ∧ o = offsetOf c p
  · obtain ⟨rfl, rfl, rfl⟩ := e
    rw [if_pos ⟨rfl, rfl, rfl⟩, if_pos ⟨offsetOf_lt c p, by rw [groupOf_offsetOf]; exact hp⟩]
    exact hv
  · rw [if_neg e]; exact groupLegal_of_wf c d h q' g hg o ho

theorem setComb_wf (c : Config) (d : DReg) (h : d.wf c) (k v : Nat) (hk : k < c.N) (hv : v ≤ 9) :
    (d.setComb c k v).wf c := by
  have hN : c.N = c.ID + c.FD := rfl
  unfold DReg.setComb
  split
  · exact setDigit_wf c d h .F k v (by assumption) hv
  · exact setDigit_wf c d h .I _ v (by show k - c.FD < c.ID; omega) hv

theorem setCombs_wf (c : Config) (d : DReg) (h : d.wf c) (k : Nat) (vs : List Nat) (hk : k + vs.length ≤ c.N)
    (hv : ∀ v ∈ vs, v ≤ 9) : (d.setCombs c k vs).wf c := by
  induction vs generalizing d k with
  | nil => exact h
  | cons v rest ih =>
    simp only [List.length_cons] at hk
    exact ih (d.setComb c k v) (setComb_wf c d h k v (by omega) (hv v List.mem_cons_self)) (k + 1) (by omega)
      (fun x hx => hv x (List.mem_cons_of_mem _ hx))

/-- The sign flag is free in a well-formed register (R23: a negative zero is legal). -/
theorem withSign_wf (c : Config) (d : DReg) (h : d.wf c) (b : Bool) : ({ d with sign := b } : DReg).wf c := h

/-- Writing a well-formed register keeps the state well formed. -/
theorem setReg_wf (s : State) (h : s.wf) (r : RegNum) (d : DReg) (hd : d.wf s.cfg) : (s.setReg r d).wf := by
  refine ⟨h.1, h.2.1, fun r' => ?_⟩
  rw [reg_setReg]
  split
  · exact hd
  · exact h.2.2 r'

/-- The response port takes no part in well-formedness. -/
theorem withRsp_wf (s : State) (h : s.wf) (x : Option Response) : ({ s with rsp := x } : State).wf := h

/-- The reset state of an admitted configuration is well formed. -/
theorem resetFor_wf (c : Config) (hc : c.wf) : (State.resetFor c).wf :=
  ⟨hc, rfl, fun r => by rw [resetFor_reg]; exact zero_wf c⟩

/-- Two well-formed registers with the same digits have the same groups. -/
theorem group_eq_of_digits (c : Config) (d d' : DReg) (h : d.wf c) (h' : d'.wf c)
    (hd : ∀ q p, p < c.cnt q → d'.digit c q p = d.digit c q p) (q : Seq) (g : Nat) (hg : g < c.gcnt q) :
    d'.group q g = d.group q g := by
  apply word_eq_of_extractField
  intro o ho
  by_cases hs : o < c.DPG ∧ g * c.DPG + o < c.cnt q
  · have e := hd q _ hs.2
    unfold DReg.digit at e
    rwa [groupOf_mul_add c g o hs.1, offsetOf_mul_add c g o hs.1] at e
  · rw [spare_eq_zero c d h q g o hg ho hs, spare_eq_zero c d' h' q g o hg ho hs]

end Sys2Proof.Machine
end

