-- ==== Sys2Proof/Laws/Arith.lean ====
section
/-! SUPPORT. What the digit-serial datapath computes: one lemma for the adder, one for the subtractor, one for the
comparator, and the place values they rest on. -/

namespace Sys2Proof.Machine

/-! ## Place values -/

theorem listValue_lt (ds : List Nat) (h : ∀ v ∈ ds, v ≤ 9) : listValue ds < 10 ^ ds.length := by
  induction ds with
  | nil => simp [listValue]
  | cons d rest ih =>
    have h1 := h d List.mem_cons_self
    have h2 := ih fun v hv => h v (List.mem_cons_of_mem _ hv)
    simp only [listValue, List.length_cons, pow_succ]
    omega

theorem listValue_append (ds es : List Nat) : listValue (ds ++ es) = listValue ds + 10 ^ ds.length * listValue es := by
  induction ds with
  | nil => simp [listValue]
  | cons d rest ih =>
    simp only [List.cons_append, listValue, ih, List.length_cons, pow_succ]
    ring

/-- Digit lists of one length with the same value are the same (positional notation). -/
theorem listValue_inj (ds es : List Nat) (hl : ds.length = es.length) (hd : ∀ v ∈ ds, v ≤ 9) (he : ∀ v ∈ es, v ≤ 9)
    (h : listValue ds = listValue es) : ds = es := by
  induction ds generalizing es with
  | nil => cases es with
    | nil => rfl
    | cons e rest => simp at hl
  | cons d rest ih =>
    cases es with
    | nil => simp at hl
    | cons e rest' =>
      have h1 := hd d List.mem_cons_self
      have h2 := he e List.mem_cons_self
      simp only [listValue] at h
      have h3 : d = e := by omega
      have h4 : listValue rest = listValue rest' := by omega
      rw [h3, ih rest' (by simpa using hl) (fun v hv => hd v (List.mem_cons_of_mem _ hv))
        (fun v hv => he v (List.mem_cons_of_mem _ hv)) h4]

theorem digitSum_congr (a b : Nat → Nat) (n : Nat) (h : ∀ k < n, a k = b k) : digitSum a n = digitSum b n := by
  induction n with
  | zero => rfl
  | succ n ih => simp only [digitSum]; rw [ih fun k hk => h k (by omega), h n (by omega)]

theorem listValue_map_range (a : Nat → Nat) (n : Nat) : listValue ((List.range n).map a) = digitSum a n := by
  induction n with
  | zero => rfl
  | succ n ih =>
    rw [List.range_succ, List.map_append, listValue_append, ih]
    simp [listValue, digitSum, Nat.mul_comm]

/-- The magnitude of a register is the value of its digit list (R46). -/
theorem mag_eq_listValue (c : Config) (d : DReg) : d.mag c = listValue (d.digits c) :=
  (listValue_map_range (d.comb c) c.N).symm

theorem digitSum_lt (a : Nat → Nat) (n : Nat) (h : ∀ k < n, a k ≤ 9) : digitSum a n < 10 ^ n := by
  induction n with
  | zero => simp [digitSum]
  | succ n ih =>
    have h1 := ih fun k hk => h k (by omega)
    have h2 : a n * 10 ^ n ≤ 9 * 10 ^ n := Nat.mul_le_mul_right _ (h n (by omega))
    simp only [digitSum, pow_succ]
    omega

/-- A well-formed register holds a magnitude below `10^N` (R46). -/
theorem mag_lt (c : Config) (d : DReg) (h : d.wf c) : d.mag c < 10 ^ c.N :=
  digitSum_lt _ _ fun k hk => comb_le_nine c d h k hk

theorem digitSum_eq_zero (a : Nat → Nat) (n : Nat) : digitSum a n = 0 ↔ ∀ k < n, a k = 0 := by
  induction n with
  | zero => simp [digitSum]
  | succ n ih =>
    simp only [digitSum, Nat.add_eq_zero_iff, Nat.mul_eq_zero, ih]
    constructor
    · rintro ⟨h1, h2⟩ k hk
      rcases Nat.lt_succ_iff_lt_or_eq.mp hk with h | rfl
      · exact h1 k h
      · rcases h2 with h2 | h2
        · exact h2
        · exact absurd h2 (by positivity)
    · intro h
      exact ⟨fun k hk => h k (by omega), .inl (h n (by omega))⟩

/-! ## Adder (R140, R142) -/

theorem addChain_length (as bs : List Nat) (k : Nat) (hl : as.length = bs.length) :
    (addChain as bs k).1.length = as.length := by
  induction as generalizing bs k with
  | nil => cases bs <;> rfl
  | cons a as' ih =>
    cases bs with
    | nil => simp at hl
    | cons b bs' => simp [addChain, ih bs' _ (by simpa using hl)]

theorem addChain_digits (as bs : List Nat) (k : Nat) : ∀ v ∈ (addChain as bs k).1, v ≤ 9 := by
  induction as generalizing bs k with
  | nil => cases bs <;> simp [addChain]
  | cons a as' ih =>
    cases bs with
    | nil => simp [addChain]
    | cons b bs' =>
      intro v hv
      simp only [addChain, List.mem_cons] at hv
      rcases hv with rfl | hv
      · omega
      · exact ih bs' _ v hv

/-- The adder keeps the value: result digits plus carry out are the sum (R142). -/
theorem addChain_value (as bs : List Nat) (k : Nat) (hl : as.length = bs.length) :
    listValue (addChain as bs k).1 + 10 ^ as.length * (addChain as bs k).2 = listValue as + listValue bs + k := by
  induction as generalizing bs k with
  | nil =>
    cases bs with
    | nil => simp [addChain, listValue]
    | cons b bs' => simp at hl
  | cons a as' ih =>
    cases bs with
    | nil => simp at hl
    | cons b bs' =>
      have h := ih bs' ((a + b + k) / 10) (by simpa using hl)
      have hm := Nat.div_add_mod (a + b + k) 10
      simp only [addChain, listValue, List.length_cons, pow_succ, Nat.mul_assoc, Nat.mul_left_comm _ 10 _]
      omega

/-- The carry out is 0 exactly when the sum fits, and then the result digits are the sum's (R142). -/
theorem addChain_spec (as bs : List Nat) (hl : as.length = bs.length) :
    ((addChain as bs 0).2 = 0 ↔ listValue as + listValue bs < 10 ^ as.length) ∧
    ((addChain as bs 0).2 = 0 → listValue (addChain as bs 0).1 = listValue as + listValue bs) := by
  have hv := addChain_value as bs 0 hl
  have hlt := listValue_lt _ (addChain_digits as bs 0)
  rw [addChain_length as bs 0 hl] at hlt
  refine ⟨⟨fun h => ?_, fun h => ?_⟩, fun h => ?_⟩
  · rw [h] at hv; omega
  · by_contra hne
    have : 10 ^ as.length * 1 ≤ 10 ^ as.length * (addChain as bs 0).2 :=
      Nat.mul_le_mul_left _ (Nat.one_le_iff_ne_zero.mpr hne)
    omega
  · rw [h] at hv; omega

/-- Addition of digit lists is symmetric in its operands (R144: commutativity). -/
theorem addChain_comm (as bs : List Nat) (k : Nat) : addChain as bs k = addChain bs as k := by
  induction as generalizing bs k with
  | nil => cases bs <;> rfl
  | cons a as' ih =>
    cases bs with
    | nil => rfl
    | cons b bs' => simp only [addChain]; rw [Nat.add_comm a b, ih]

/-! ## Subtractor (R141, R143) -/

theorem subChain_length (as bs : List Nat) (k : Nat) (hl : as.length = bs.length) :
    (subChain as bs k).1.length = as.length := by
  induction as generalizing bs k with
  | nil => cases bs <;> rfl
  | cons a as' ih =>
    cases bs with
    | nil => simp at hl
    | cons b bs' => simp [subChain, ih bs' _ (by simpa using hl)]

theorem subChain_borrow (as bs : List Nat) (k : Nat) (hk : k ≤ 1) : (subChain as bs k).2 ≤ 1 := by
  induction as generalizing bs k with
  | nil => cases bs <;> exact hk
  | cons a as' ih =>
    cases bs with
    | nil => exact hk
    | cons b bs' =>
      simp only [subChain]
      exact ih bs' _ (by split <;> omega)

/-- The written digit is always 0 to 9 (R141, corner cases). -/
theorem subChain_digits (as bs : List Nat) (k : Nat) (hk : k ≤ 1) (ha : ∀ v ∈ as, v ≤ 9) (hb : ∀ v ∈ bs, v ≤ 9) :
    ∀ v ∈ (subChain as bs k).1, v ≤ 9 := by
  induction as generalizing bs k with
  | nil => cases bs <;> simp [subChain]
  | cons a as' ih =>
    cases bs with
    | nil => simp [subChain]
    | cons b bs' =>
      intro v hv
      have h1 := ha a List.mem_cons_self
      have h2 := hb b List.mem_cons_self
      simp only [subChain, List.mem_cons] at hv
      rcases hv with rfl | hv
      · by_cases h : a < b + k <;> simp [h] <;> omega
      · exact ih bs' _ (by split <;> omega) (fun v hv => ha v (List.mem_cons_of_mem _ hv))
          (fun v hv => hb v (List.mem_cons_of_mem _ hv)) v hv

/-- The subtractor keeps the value: result digits less the borrow out are the difference (R143). -/
theorem subChain_value (as bs : List Nat) (k : Nat) (hk : k ≤ 1) (hl : as.length = bs.length)
    (hb : ∀ v ∈ bs, v ≤ 9) :
    listValue (subChain as bs k).1 + listValue bs + k = listValue as + 10 ^ as.length * (subChain as bs k).2 := by
  induction as generalizing bs k with
  | nil =>
    cases bs with
    | nil => simp [subChain, listValue]
    | cons b bs' => simp at hl
  | cons a as' ih =>
    cases bs with
    | nil => simp at hl
    | cons b bs' =>
      have h2 := hb b List.mem_cons_self
      have h := ih bs' (if a < b + k then 1 else 0) (by split <;> omega) (by simpa using hl)
        (fun v hv => hb v (List.mem_cons_of_mem _ hv))
      simp only [subChain, listValue, List.length_cons, pow_succ, Nat.mul_assoc, Nat.mul_left_comm _ 10 _]
      by_cases hlt : a < b + k
      · simp only [hlt, if_true] at h ⊢; omega
      · simp only [hlt, if_false] at h ⊢; simp; omega

/-- The borrow out is 0 exactly when the left value is not below the right, and then the result digits are the
difference's (R143). -/
theorem subChain_spec (as bs : List Nat) (hl : as.length = bs.length) (ha : ∀ v ∈ as, v ≤ 9) (hb : ∀ v ∈ bs, v ≤ 9) :
    ((subChain as bs 0).2 = 0 ↔ listValue bs ≤ listValue as) ∧
    ((subChain as bs 0).2 = 0 → listValue (subChain as bs 0).1 = listValue as - listValue bs) := by
  have hv := subChain_value as bs 0 (by omega) hl hb
  have hlt := listValue_lt _ (subChain_digits as bs 0 (by omega) ha hb)
  have hk := subChain_borrow as bs 0 (by omega)
  rw [subChain_length as bs 0 hl] at hlt
  rcases Nat.le_one_iff_eq_zero_or_eq_one.mp hk with h | h <;> rw [h] at hv <;>
    refine ⟨⟨fun h' => ?_, fun h' => ?_⟩, fun h' => ?_⟩ <;> omega

/-! ## Comparator (R175, R176) -/

/-- The comparator orders digit strings as their values (R176). -/
theorem magOrdering_spec (a b : Nat → Nat) (n : Nat) (ha : ∀ k < n, a k ≤ 9) (hb : ∀ k < n, b k ≤ 9) :
    magOrdering a b n = compare (digitSum a n) (digitSum b n) := by
  induction n with
  | zero => simp [magOrdering, digitSum]
  | succ n ih =>
    have h1 := digitSum_lt a n fun k hk => ha k (by omega)
    have h2 := digitSum_lt b n fun k hk => hb k (by omega)
    simp only [magOrdering, digitSum]
    split
    · rename_i h
      rw [ih (fun k hk => ha k (by omega)) (fun k hk => hb k (by omega)), h]
      simp only [Nat.compare_eq_ite_lt, Nat.add_lt_add_iff_right]
    · rename_i h
      split
      · rename_i hlt
        have : (b n + 1) * 10 ^ n ≤ a n * 10 ^ n := Nat.mul_le_mul_right _ hlt
        rw [Nat.add_mul] at this
        exact (Nat.compare_eq_gt.mpr (by omega)).symm
      · rename_i hlt
        have : (a n + 1) * 10 ^ n ≤ b n * 10 ^ n := Nat.mul_le_mul_right _ (by omega)
        rw [Nat.add_mul] at this
        exact (Nat.compare_eq_lt.mpr (by omega)).symm

end Sys2Proof.Machine
end

