-- ==== Sys2Proof/Laws/Encoding.lean ====
section
/-! SUPPORT. The fields of a formatted command word, and a formatted word under a mask (30_encoding.md R70, R71, R77). -/

namespace Sys2Proof

theorem append_and6 {a b c d e f : Nat} (a1 a2 : BitVec a) (b1 b2 : BitVec b) (c1 c2 : BitVec c) (d1 d2 : BitVec d)
    (e1 e2 : BitVec e) (f1 f2 : BitVec f) :
    (a1 ++ b1 ++ c1 ++ d1 ++ e1 ++ f1) &&& (a2 ++ b2 ++ c2 ++ d2 ++ e2 ++ f2)
      = (a1 &&& a2) ++ (b1 &&& b2) ++ (c1 &&& c2) ++ (d1 &&& d2) ++ (e1 &&& e2) ++ (f1 &&& f2) := by
  simp only [BitVec.and_append]

theorem append_and5 {a b c d e : Nat} (a1 a2 : BitVec a) (b1 b2 : BitVec b) (c1 c2 : BitVec c) (d1 d2 : BitVec d)
    (e1 e2 : BitVec e) :
    (a1 ++ b1 ++ c1 ++ d1 ++ e1) &&& (a2 ++ b2 ++ c2 ++ d2 ++ e2)
      = (a1 &&& a2) ++ (b1 &&& b2) ++ (c1 &&& c2) ++ (d1 &&& d2) ++ (e1 &&& e2) := by
  simp only [BitVec.and_append]

/-- A format D word under a mask, field by field. -/
theorem formatD_and (op m6 : BitVec 6) (r : RegNum) (m3 : BitVec 3) (q : Seq) (m1 : BitVec 1) (m2 : BitVec 2)
    (v m4 : BitVec 4) (x m16 : BitVec 16) :
    formatD op r q v x &&& (m6 ++ m3 ++ m1 ++ m2 ++ m4 ++ m16 : BitVec 32)
      = ((op &&& m6) ++ (BitVec.ofFin (w := 3) r &&& m3) ++ (q.bit &&& m1) ++ (0#2 &&& m2) ++ (v &&& m4)
          ++ (x &&& m16) : BitVec 32) := append_and6 ..

/-- A format R word under a mask, field by field. -/
theorem formatR_and (op m6 : BitVec 6) (rd ra rb : RegNum) (m1 m2 m3 : BitVec 3) (m17 : BitVec 17) :
    formatR op rd ra rb &&& (m6 ++ m1 ++ m2 ++ m3 ++ m17 : BitVec 32)
      = ((op &&& m6) ++ (BitVec.ofFin (w := 3) rd &&& m1) ++ (BitVec.ofFin (w := 3) ra &&& m2)
          ++ (BitVec.ofFin (w := 3) rb &&& m3) ++ (0#17 &&& m17) : BitVec 32) := append_and5 ..

/-- A field above the lowest part of a concatenation is a field of the rest. -/
theorem extract_drop {w v : Nat} (hi : BitVec w) (lo : BitVec v) (start len : Nat) (h : v ≤ start) :
    (hi ++ lo).extractLsb' start len = hi.extractLsb' (start - v) len := BitVec.extractLsb'_append_eq_of_le h

/-- One bit as a field. -/
theorem getLsbD_eq_extract {w : Nat} (x : BitVec w) (n : Nat) : x.getLsbD n = (x.extractLsb' n 1).getLsbD 0 := by
  simp

/-! ## Fields of a format D word -/

theorem formatD_idx (op : BitVec 6) (r : RegNum) (q : Seq) (v : BitVec 4) (x : BitVec 16) :
    (formatD op r q v x).extractLsb' 0 16 = x := BitVec.extractLsb'_append_eq_right

theorem formatD_val (op : BitVec 6) (r : RegNum) (q : Seq) (v : BitVec 4) (x : BitVec 16) :
    (formatD op r q v x).extractLsb' 16 4 = v :=
  (extract_drop _ x 16 4 (by decide)).trans BitVec.extractLsb'_append_eq_right

theorem formatD_qbit (op : BitVec 6) (r : RegNum) (q : Seq) (v : BitVec 4) (x : BitVec 16) :
    (formatD op r q v x).extractLsb' 22 1 = q.bit :=
  (extract_drop _ x 22 1 (by decide)).trans <| (extract_drop _ v 6 1 (by decide)).trans <|
    (extract_drop _ 0#2 2 1 (by decide)).trans BitVec.extractLsb'_append_eq_right

theorem formatD_rbits (op : BitVec 6) (r : RegNum) (q : Seq) (v : BitVec 4) (x : BitVec 16) :
    (formatD op r q v x).extractLsb' 23 3 = BitVec.ofFin (w := 3) r :=
  (extract_drop _ x 23 3 (by decide)).trans <| (extract_drop _ v 7 3 (by decide)).trans <|
    (extract_drop _ 0#2 3 3 (by decide)).trans <| (extract_drop _ q.bit 1 3 (by decide)).trans
      BitVec.extractLsb'_append_eq_right

theorem formatD_reg (op : BitVec 6) (r : RegNum) (q : Seq) (v : BitVec 4) (x : BitVec 16) :
    fieldRd (formatD op r q v x) = r := congrArg BitVec.toFin (formatD_rbits op r q v x)

theorem formatD_seq (op : BitVec 6) (r : RegNum) (q : Seq) (v : BitVec 4) (x : BitVec 16) :
    fieldQ (formatD op r q v x) = q := by
  unfold fieldQ
  rw [getLsbD_eq_extract, formatD_qbit]
  cases q <;> rfl

theorem formatD_sign (op : BitVec 6) (r : RegNum) (q : Seq) (v : BitVec 4) (x : BitVec 16) :
    fieldSign (formatD op r q v x) = v.getLsbD 0 := by
  have h := congrArg (fun y : BitVec 4 => y.getLsbD 0) (formatD_val op r q v x)
  simpa [BitVec.getLsbD_extractLsb', fieldSign] using h

/-! ## Fields of a format R word -/

theorem formatR_rd (op : BitVec 6) (rd ra rb : RegNum) : fieldRd (formatR op rd ra rb) = rd :=
  congrArg BitVec.toFin <| (extract_drop _ 0#17 23 3 (by decide)).trans <|
    (extract_drop _ (BitVec.ofFin (w := 3) rb) 6 3 (by decide)).trans <|
    (extract_drop _ (BitVec.ofFin (w := 3) ra) 3 3 (by decide)).trans BitVec.extractLsb'_append_eq_right

theorem formatR_ra (op : BitVec 6) (rd ra rb : RegNum) : fieldRa (formatR op rd ra rb) = ra :=
  congrArg BitVec.toFin <| (extract_drop _ 0#17 20 3 (by decide)).trans <|
    (extract_drop _ (BitVec.ofFin (w := 3) rb) 3 3 (by decide)).trans BitVec.extractLsb'_append_eq_right

theorem formatR_rb (op : BitVec 6) (rd ra rb : RegNum) : fieldRb (formatR op rd ra rb) = rb :=
  congrArg BitVec.toFin <| (extract_drop _ 0#17 17 3 (by decide)).trans BitVec.extractLsb'_append_eq_right

end Sys2Proof
end

