-- ==== Sys2Proof/Laws/Mul.lean ====
section
/-! SUPPORT. What the multiplier computes (43_multiply.md R160, R161): partial products, their sum, and Overflow. -/

namespace Sys2Proof.Machine

/-! ## One partial product -/

/-- The scratch of a row holds the unscaled product `u` cut to `FD` fractional digits, as far as `N` digits hold it:
the overflow mark is set exactly when they do not. -/
structure RowHolds (c : Config) (row : MulRow) (u : Nat) : Prop where
  len : row.P.length = c.N
  dig : ∀ v ∈ row.P, v ≤ 9
  val : listValue row.P = u / 10 ^ c.FD % 10 ^ c.N
  ovf : row.ovf = true ↔ 10 ^ c.N ≤ u / 10 ^ c.FD

/-- Writing a digit into a zero place of a digit list adds its place value. -/
theorem listValue_set (ds : List Nat) (k d : Nat) (hk : k < ds.length) (h : listValue ds < 10 ^ k) :
    listValue (ds.set k d) = listValue ds + d * 10 ^ k := by
  induction ds generalizing k with
  | nil => simp at hk
  | cons x rest ih =>
    cases k with
    | zero =>
      simp only [listValue, pow_zero] at h ⊢
      simp only [List.set_cons_zero, listValue]; omega
    | succ k =>
      simp only [listValue, pow_succ] at h
      have h2 : listValue rest < 10 ^ k := by omega
      simp only [List.set_cons_succ, listValue, ih k (by simpa using hk) h2, pow_succ]
      ring

/-- Placing the next digit keeps what the row holds (R160: below 0 dropped, inside stored, above `N` Overflow). -/
theorem place_holds (c : Config) (row : MulRow) (u pos d : Nat) (h : RowHolds c row u) (hu : u < 10 ^ pos) (hd : d ≤ 9) :
    RowHolds c (row.place c pos d) (u + d * 10 ^ pos) ∧ (row.place c pos d).carry = row.carry := by
  have hFD : 0 < 10 ^ c.FD := by positivity
  unfold MulRow.place
  by_cases h1 : pos < c.FD
  · rw [if_pos h1]
    have hp : 10 ^ (pos + 1) ≤ 10 ^ c.FD := Nat.pow_le_pow_right (by decide) h1
    have hb : u + d * 10 ^ pos < 10 ^ c.FD := by
      have : d * 10 ^ pos ≤ 9 * 10 ^ pos := Nat.mul_le_mul_right _ hd
      rw [pow_succ] at hp; omega
    have e : (u + d * 10 ^ pos) / 10 ^ c.FD = u / 10 ^ c.FD := by
      rw [Nat.div_eq_of_lt hb, Nat.div_eq_of_lt (by omega)]
    exact ⟨⟨h.len, h.dig, by rw [e]; exact h.val, by rw [e]; exact h.ovf⟩, rfl⟩
  · rw [if_neg h1]
    obtain ⟨k, rfl⟩ := Nat.exists_eq_add_of_le (Nat.le_of_not_lt h1)
    have hk : c.FD + k - c.FD = k := by omega
    have e : (u + d * 10 ^ (c.FD + k)) / 10 ^ c.FD = u / 10 ^ c.FD + d * 10 ^ k := by
      rw [show u + d * 10 ^ (c.FD + k) = u + 10 ^ c.FD * (d * 10 ^ k) by rw [pow_add]; ring,
        Nat.add_mul_div_left _ _ hFD]
    have hq : u / 10 ^ c.FD < 10 ^ k := by
      rw [Nat.div_lt_iff_lt_mul hFD, Nat.mul_comm, ← pow_add]; exact hu
    rw [hk]
    by_cases h2 : k < c.N
    · rw [if_pos h2]
      have hkN : 10 ^ (k + 1) ≤ 10 ^ c.N := Nat.pow_le_pow_right (by decide) h2
      have hb : u / 10 ^ c.FD + d * 10 ^ k < 10 ^ c.N := by
        have : d * 10 ^ k ≤ 9 * 10 ^ k := Nat.mul_le_mul_right _ hd
        rw [pow_succ] at hkN; omega
      have hlt : u / 10 ^ c.FD < 10 ^ c.N := by omega
      have hv : listValue row.P = u / 10 ^ c.FD := by rw [h.val, Nat.mod_eq_of_lt hlt]
      refine ⟨⟨by simpa using h.len, fun v hv' => ?_, ?_, ?_⟩, rfl⟩
      · rcases List.mem_or_eq_of_mem_set hv' with h' | rfl
        · exact h.dig v h'
        · exact hd
      · show listValue (row.P.set k d) = _
        rw [listValue_set _ _ _ (by rw [h.len]; exact h2) (by rw [hv]; exact hq), hv, e, Nat.mod_eq_of_lt hb]
      · rw [e]
        show row.ovf = true ↔ _
        rw [h.ovf]
        omega
    · rw [if_neg h2]
      have hNk : 10 ^ c.N ≤ 10 ^ k := Nat.pow_le_pow_right (by decide) (by omega)
      refine ⟨⟨h.len, h.dig, ?_, ?_⟩, rfl⟩
      · show listValue row.P = _
        obtain ⟨j, rfl⟩ := Nat.exists_eq_add_of_le (Nat.le_of_not_lt h2)
        rw [h.val, e, show d * 10 ^ (c.N + j) = 10 ^ c.N * (d * 10 ^ j) by rw [pow_add]; ring, Nat.add_mul_mod_self_left]
      · rw [e]
        show (row.ovf || d != 0) = true ↔ _
        rw [Bool.or_eq_true, h.ovf, bne_iff_ne]
        by_cases hd0 : d = 0
        · subst hd0; simp
        · have : 1 * 10 ^ k ≤ d * 10 ^ k := Nat.mul_le_mul_right _ (by omega)
          constructor
          · intro _; exact le_trans (by omega) (Nat.le_add_left _ _)
          · intro _; exact .inr hd0

/-- The running carry of the inner loop stays 0 to 8 and the accumulator at most 89 (R160, R166). -/
theorem mulDigit_bounds (ai bj carry : Nat) (ha : ai ≤ 9) (hb : bj ≤ 9) (hc : carry ≤ 8) :
    ai * bj + carry ≤ 89 ∧ (ai * bj + carry) / 10 ≤ 8 := by
  have : ai * bj ≤ 9 * 9 := Nat.mul_le_mul ha hb
  omega

/-- The inner loop forms the digits of `a_i * B` at its shifted positions (R160, R161). -/
theorem mulDigits_holds (c : Config) (i ai j : Nat) (bs : List Nat) (row : MulRow) (u : Nat) (h : RowHolds c row u)
    (hu : u < 10 ^ (i + j)) (ha : ai ≤ 9) (hb : ∀ v ∈ bs, v ≤ 9) (hc : row.carry ≤ 8) :
    ∃ u', RowHolds c (mulDigits c i ai j bs row) u' ∧ u' < 10 ^ (i + j + bs.length) ∧
      (mulDigits c i ai j bs row).carry ≤ 8 ∧
      u' + (mulDigits c i ai j bs row).carry * 10 ^ (i + j + bs.length)
        = u + (row.carry + ai * listValue bs) * 10 ^ (i + j) := by
  induction bs generalizing j row u with
  | nil => exact ⟨u, h, hu, hc, by simp [mulDigits, listValue]⟩
  | cons b rest ih =>
    have hbb := hb b List.mem_cons_self
    have hbd := mulDigit_bounds ai b row.carry ha hbb hc
    set dp := ai * b + row.carry with hdp
    have hrow : RowHolds c { row with carry := dp / 10 } u := ⟨h.len, h.dig, h.val, h.ovf⟩
    obtain ⟨hp, hpc⟩ := place_holds c _ u (i + j) (dp % 10) hrow hu (by omega)
    have hstep : mulDigit c i ai j b row = MulRow.place c { row with carry := dp / 10 } (i + j) (dp % 10) := rfl
    rw [← hstep] at hp hpc
    have hcar : (mulDigit c i ai j b row).carry = dp / 10 := hpc
    have hu' : u + dp % 10 * 10 ^ (i + j) < 10 ^ (i + (j + 1)) := by
      have : dp % 10 * 10 ^ (i + j) ≤ 9 * 10 ^ (i + j) := Nat.mul_le_mul_right _ (by omega)
      rw [← Nat.add_assoc, pow_succ]; omega
    obtain ⟨u', h1, h2, h3, h4⟩ := ih (j + 1) (mulDigit c i ai j b row) _ hp hu'
      (fun v hv => hb v (List.mem_cons_of_mem _ hv)) (by rw [hcar]; exact hbd.2)
    have el : i + (j + 1) + rest.length = i + j + (b :: rest).length := by simp only [List.length_cons]; omega
    refine ⟨u', h1, by rw [← el]; exact h2, h3, ?_⟩
    show u' + (mulDigits c i ai (j + 1) rest (mulDigit c i ai j b row)).carry * _ = _
    rw [← el, h4, hcar, ← Nat.add_assoc i j 1, pow_succ]
    have hm := Nat.div_add_mod dp 10
    have : (row.carry + ai * listValue (b :: rest)) = dp % 10 + 10 * (dp / 10) + 10 * (ai * listValue rest) := by
      simp only [listValue, Nat.mul_add]
      rw [Nat.mul_left_comm ai 10]
      omega
    rw [this]; ring

/-- The cleared scratch holds 0. -/
theorem clearedRow_holds (c : Config) : RowHolds c { carry := 0, P := List.replicate c.N 0, ovf := false } 0 := by
  have hz : ∀ n, listValue (List.replicate n 0) = 0 := by
    intro n; induction n with
    | zero => rfl
    | succ n ih => simp [List.replicate_succ, listValue, ih]
  refine ⟨List.length_replicate, fun v hv => ?_, ?_, ?_⟩
  · rw [List.eq_of_mem_replicate hv]; exact Nat.zero_le _
  · simp [hz]
  · simp

/-- The partial product of digit `i`: `pp_i = (a_i * 10^i * B) / 10^FD`, with the overflow mark exactly when it does
not fit `N` digits (R161). -/
theorem partialProduct_holds (c : Config) (i ai : Nat) (bs : List Nat) (hl : bs.length = c.N) (ha : ai ≤ 9)
    (hb : ∀ v ∈ bs, v ≤ 9) : RowHolds c (partialProduct c i ai bs) (ai * 10 ^ i * listValue bs) := by
  obtain ⟨u, h1, h2, h3, h4⟩ := mulDigits_holds c i ai 0 bs _ 0 (clearedRow_holds c) (by positivity) ha hb (by simp)
  simp only [Nat.add_zero, Nat.zero_add, hl] at h2 h4
  have e : ai * 10 ^ i * listValue bs = ai * listValue bs * 10 ^ i := by ring
  unfold partialProduct
  dsimp only
  split
  · rename_i hc
    rw [hc] at h4
    rw [e, ← h4]
    simpa using h1
  · rw [e, ← h4]
    exact (place_holds c _ u (i + c.N) _ h1 h2 (by omega)).1

/-! ## The accumulation -/

/-- The partial products of the digits from index `i` up, summed. -/
def partialsFrom (c : Config) (i : Nat) (as : List Nat) (B : Nat) : Nat :=
  match as with
  | [] => 0
  | a :: rest => partialValue c a i B + partialsFrom c (i + 1) rest B

theorem partialsFrom_append (c : Config) (i : Nat) (as as' : List Nat) (B : Nat) :
    partialsFrom c i (as ++ as') B = partialsFrom c i as B + partialsFrom c (i + as.length) as' B := by
  induction as generalizing i with
  | nil => simp [partialsFrom]
  | cons a rest ih =>
    simp only [List.cons_append, partialsFrom, ih, List.length_cons]
    rw [show i + 1 + rest.length = i + (rest.length + 1) by omega]; ring

theorem partialsFrom_map_range (c : Config) (a : Nat → Nat) (B n : Nat) :
    partialsFrom c 0 ((List.range n).map a) B = partialSum c a B n := by
  induction n with
  | zero => rfl
  | succ n ih =>
    rw [List.range_succ, List.map_append, partialsFrom_append, ih]
    simp [partialsFrom, partialSum]

/-- The outer loop: the running sum is the sum of the partial products as long as it fits, and the overflow mark says
when it does not (R160, R161). -/
theorem mulAccumulate_spec (c : Config) (i : Nat) (as bs S : List Nat) (ovf : Bool) (T : Nat) (hl : bs.length = c.N)
    (ha : ∀ v ∈ as, v ≤ 9) (hb : ∀ v ∈ bs, v ≤ 9) (hS : S.length = c.N) (hSd : ∀ v ∈ S, v ≤ 9)
    (hv : ovf = false → listValue S = T) (ho : ovf = true ↔ 10 ^ c.N ≤ T) :
    (mulAccumulate c i as bs S ovf).1.length = c.N ∧ (∀ v ∈ (mulAccumulate c i as bs S ovf).1, v ≤ 9) ∧
    ((mulAccumulate c i as bs S ovf).2 = false →
      listValue (mulAccumulate c i as bs S ovf).1 = T + partialsFrom c i as (listValue bs)) ∧
    ((mulAccumulate c i as bs S ovf).2 = true ↔ 10 ^ c.N ≤ T + partialsFrom c i as (listValue bs)) := by
  induction as generalizing i S ovf T with
  | nil => exact ⟨hS, hSd, by simpa [mulAccumulate, partialsFrom] using hv, by simpa [mulAccumulate, partialsFrom] using ho⟩
  | cons a rest ih =>
    have hr := partialProduct_holds c i a bs hl (ha a List.mem_cons_self) hb
    set row := partialProduct c i a bs with hrow
    have hpv : a * 10 ^ i * listValue bs / 10 ^ c.FD = partialValue c a i (listValue bs) := rfl
    rw [show partialsFrom c i (a :: rest) (listValue bs)
      = partialValue c a i (listValue bs) + partialsFrom c (i + 1) rest (listValue bs) from rfl, ← Nat.add_assoc]
    have hval := hr.val
    have hovf := hr.ovf
    rw [hpv] at hval hovf
    set pp := partialValue c a i (listValue bs) with hpp
    have hlen : S.length = row.P.length := by rw [hS, hr.len]
    have hacc := addChain_spec S row.P hlen
    rw [hS] at hacc
    have hcarry : (addChain S row.P 0).2 ≠ 0 ↔ 10 ^ c.N ≤ listValue S + listValue row.P := by
      rw [Ne, hacc.1, Nat.not_lt]
    have hSlt := listValue_lt S hSd
    rw [hS] at hSlt
    have key : (ovf || row.ovf || (addChain S row.P 0).2 != 0) = true ↔ 10 ^ c.N ≤ T + pp := by
      rw [Bool.or_eq_true, Bool.or_eq_true, ho, hovf, bne_iff_ne, hcarry]
      by_cases h1 : 10 ^ c.N ≤ T
      · constructor
        · intro _; omega
        · intro _; exact .inl (.inl h1)
      · have h2 : ovf = false := by
          cases h : ovf
          · rfl
          · exact absurd (ho.mp h) h1
        rw [hv h2]
        by_cases h3 : 10 ^ c.N ≤ pp
        · constructor
          · intro _; omega
          · intro _; exact .inl (.inr h3)
        · rw [hval, Nat.mod_eq_of_lt (by omega)]
          constructor
          · rintro ((h | h) | h) <;> omega
          · intro h; exact .inr h
    have hval' : (ovf || row.ovf || (addChain S row.P 0).2 != 0) = false → listValue (addChain S row.P 0).1 = T + pp := by
      intro h
      have hn : ¬ 10 ^ c.N ≤ T + pp := fun h' => by rw [key.mpr h'] at h; cases h
      rw [Bool.or_eq_false_iff, Bool.or_eq_false_iff] at h
      have h0 : (addChain S row.P 0).2 = 0 := by simpa using h.2
      rw [hacc.2 h0, hv h.1.1, hval, Nat.mod_eq_of_lt (by omega)]
    exact ih (i + 1) (addChain S row.P 0).1 _ (T + pp) (fun v hv' => ha v (List.mem_cons_of_mem _ hv'))
      (by rw [addChain_length _ _ _ hlen, hS]) (addChain_digits S row.P 0) hval' key

/-- The multiplier (R161): the overflow mark is set exactly when the sum `R` of the partial products reaches `10^N`,
and otherwise the result digits are `R`'s. -/
theorem mulChain_spec (c : Config) (as bs : List Nat) (hl : bs.length = c.N) (ha : ∀ v ∈ as, v ≤ 9) (hb : ∀ v ∈ bs, v ≤ 9) :
    (mulChain c as bs).1.length = c.N ∧ (∀ v ∈ (mulChain c as bs).1, v ≤ 9) ∧
    ((mulChain c as bs).2 = false → listValue (mulChain c as bs).1 = partialsFrom c 0 as (listValue bs)) ∧
    ((mulChain c as bs).2 = true ↔ 10 ^ c.N ≤ partialsFrom c 0 as (listValue bs)) := by
  have hz := clearedRow_holds c
  have hz0 : listValue (List.replicate c.N 0) = 0 := by simpa using hz.val
  have h := mulAccumulate_spec c 0 as bs (List.replicate c.N 0) false 0 hl ha hb hz.len hz.dig (fun _ => hz0)
    (by simp)
  simpa [mulChain] using h

end Sys2Proof.Machine
end

