-- ==== Sys2Proof/Laws/Operations.lean ====
section
/-! SUPPORT. One lemma for each shared operation of the commands: what it can answer, and what it does then. -/

namespace Sys2Proof.Machine

/-! ## Operand checks -/

/-- The verdict on a digit write (R101, R194). -/
theorem digitWriteError_eq_none (c : Config) (q : Seq) (p v : Nat) :
    digitWriteError c q p v = none ↔ p < c.cnt q ∧ v ≤ 9 := by
  unfold digitWriteError
  split
  · simp; omega
  · split
    · simp; omega
    · simp; omega

/-- The signed digit index addresses a digit exactly inside `-FD .. ID-1` (R51, R122). -/
theorem signedPosition_eq_none (c : Config) (x : Int) :
    signedPosition c x = none ↔ (c.ID : Int) ≤ x ∨ x < -(c.FD : Int) := by
  unfold signedPosition
  split
  · split
    · simp; omega
    · simp; omega
  · split
    · simp; omega
    · simp; omega

/-- Where a signed index leads (R122): a non-negative one to the integer position, a negative one to the fractional
position `FD + x`, and always to a position of the sequence. -/
theorem signedPosition_eq_some (c : Config) (x : Int) (q : Seq) (p : Nat) (h : signedPosition c x = some (q, p)) :
    p < c.cnt q ∧ ((q = .I ∧ x = (p : Int)) ∨ (q = .F ∧ x = (p : Int) - (c.FD : Int))) := by
  unfold signedPosition at h
  split at h
  · split at h
    · cases h
    · simp only [Option.some.injEq, Prod.mk.injEq] at h
      obtain ⟨rfl, rfl⟩ := h
      exact ⟨by show x.toNat < c.ID; omega, .inl ⟨rfl, by omega⟩⟩
  · split at h
    · cases h
    · simp only [Option.some.injEq, Prod.mk.injEq] at h
      obtain ⟨rfl, rfl⟩ := h
      exact ⟨by show ((c.FD : Int) + x).toNat < c.FD; omega, .inr ⟨rfl, by omega⟩⟩

theorem hasBadDigit_iff (c : Config) (w : Word) : hasBadDigit c w = true ↔ ∃ o < c.DPG, 9 < extractField w o := by
  simp [hasBadDigit]

theorem hasNonzeroSpare_iff (c : Config) (q : Seq) (g : Nat) (w : Word) :
    hasNonzeroSpare c q g w = true ↔ ∃ o < c.DPG, c.cnt q ≤ g * c.DPG + o ∧ extractField w o ≠ 0 := by
  simp [hasNonzeroSpare]

/-- The write data of LDG field by field (R65, R75). -/
theorem extractField_writeData (s : State) (o : Nat) :
    extractField (writeData s) o = if o < s.cfg.DPG then extractField s.wdata o else 0 :=
  extractField_wireWord s.cfg s.wdata o

/-- LDG accepts its write data exactly when the group exists and the contents are legal (R103). -/
theorem groupWriteError_eq_none (s : State) (q : Seq) (g : Nat) :
    groupWriteError s.cfg q g (writeData s) = none ↔ g < s.cfg.gcnt q ∧ groupLegal s.cfg q g (writeData s) := by
  unfold groupWriteError
  by_cases h1 : s.cfg.gcnt q ≤ g
  · rw [if_pos h1]; simp; omega
  rw [if_neg h1]
  by_cases h2 : hasBadDigit s.cfg (writeData s) = true
  · rw [if_pos h2]
    obtain ⟨o, ho, h⟩ := (hasBadDigit_iff _ _).mp h2
    refine ⟨fun x => (by cases x), fun x => ?_⟩
    have := x.2 o (lt_of_lt_of_le ho (DPG_le _))
    split at this <;> omega
  rw [if_neg h2]
  by_cases h3 : hasNonzeroSpare s.cfg q g (writeData s) = true
  · rw [if_pos h3]
    obtain ⟨o, ho, h, h'⟩ := (hasNonzeroSpare_iff _ _ _ _).mp h3
    refine ⟨fun x => (by cases x), fun x => ?_⟩
    have := x.2 o (lt_of_lt_of_le ho (DPG_le _))
    rw [if_neg (by omega)] at this
    omega
  rw [if_neg h3]
  refine ⟨fun _ => ⟨by omega, fun o ho => ?_⟩, fun _ => rfl⟩
  rw [hasBadDigit_iff] at h2
  rw [hasNonzeroSpare_iff] at h3
  by_cases hD : o < s.cfg.DPG
  · by_cases hc : g * s.cfg.DPG + o < s.cfg.cnt q
    · rw [if_pos ⟨hD, hc⟩]
      by_contra hn
      exact h2 ⟨o, hD, by omega⟩
    · rw [if_neg (fun x => hc x.2)]
      by_contra hn
      exact h3 ⟨o, hD, by omega, by omega⟩
  · rw [extractField_writeData, if_neg hD]; exact Nat.zero_le _

/-! ## Store operations of the state -/

theorem groupWrite_reg (s : State) (r r' : RegNum) (q : Seq) (g : Nat) (w : Word) :
    (groupWrite s r q g w).reg r' = if r' = r then (s.reg r).setGroup q g w else s.reg r' := reg_setReg s r r' _

theorem digitWrite_reg (s : State) (r r' : RegNum) (q : Seq) (p v : Nat) :
    (digitWrite s r q p v).reg r' = if r' = r then (s.reg r).setDigit s.cfg q p v else s.reg r' := reg_setReg s r r' _

theorem signWrite_reg (s : State) (r r' : RegNum) (b : Bool) :
    (signWrite s r b).reg r' = if r' = r then { s.reg r with sign := b } else s.reg r' := reg_setReg s r r' _

theorem commitValue_reg (s : State) (rd r' : RegNum) (ds : List Nat) (b : Bool) :
    (commitValue s rd ds b).reg r'
      = if r' = rd then { (s.reg rd).setCombs s.cfg 0 ds with sign := b } else s.reg r' := reg_setReg s rd r' _

/-- The commit of ADD, SUB and MUL in a well-formed state: the destination holds the digits, their value and the sign,
every other register is as before, and the state stays well formed (R140, R26, R33). -/
theorem commitValue_spec (s : State) (h : s.wf) (rd : RegNum) (ds : List Nat) (b : Bool) (hl : ds.length = s.cfg.N)
    (hd : ∀ v ∈ ds, v ≤ 9) :
    (commitValue s rd ds b).wf ∧ mag (commitValue s rd ds b) rd = listValue ds ∧
    ((commitValue s rd ds b).reg rd).digits s.cfg = ds ∧ ((commitValue s rd ds b).reg rd).sign = b ∧
    onlyReg rd s (commitValue s rd ds b) := by
  have hw := h.2.2 rd
  have hs := sized_of_wf _ _ hw
  have hdig : ((commitValue s rd ds b).reg rd).digits s.cfg = ds := by
    rw [commitValue_reg, if_pos rfl]
    have e : ({ (s.reg rd).setCombs s.cfg 0 ds with sign := b } : DReg).digits s.cfg
        = ((s.reg rd).setCombs s.cfg 0 ds).digits s.cfg := by
      unfold DReg.digits; exact List.map_congr_left fun k _ => withSign_comb _ _ _ _
    rw [e, digits_setCombs s.cfg _ ds hs hl fun v hv => by have := hd v hv; omega]
  refine ⟨setReg_wf s h rd _ (withSign_wf _ _ (setCombs_wf s.cfg _ hw 0 ds (by omega) hd) b), ?_, hdig, ?_,
    ⟨rfl, rfl, rfl, rfl⟩, fun r hr => ?_⟩
  · show ((commitValue s rd ds b).reg rd).mag s.cfg = _
    rw [mag_eq_listValue, hdig]
  · rw [commitValue_reg, if_pos rfl]
  · rw [commitValue_reg, if_neg hr]

/-! ## The datapath on registers -/

theorem reg_digits_le_nine (s : State) (h : s.wf) (r : RegNum) : ∀ v ∈ (s.reg r).digits s.cfg, v ≤ 9 :=
  digits_le_nine _ _ (h.2.2 r)

theorem mag_eq (s : State) (r : RegNum) : mag s r = listValue ((s.reg r).digits s.cfg) := mag_eq_listValue _ _

/-- The adder on two registers (R142). -/
theorem addChain_reg (s : State) (ra rb : RegNum) :
    ((addChain ((s.reg ra).digits s.cfg) ((s.reg rb).digits s.cfg) 0).2 = 0 ↔ mag s ra + mag s rb < capacity s.cfg) ∧
    ((addChain ((s.reg ra).digits s.cfg) ((s.reg rb).digits s.cfg) 0).2 = 0 →
      listValue (addChain ((s.reg ra).digits s.cfg) ((s.reg rb).digits s.cfg) 0).1 = mag s ra + mag s rb) := by
  have h := addChain_spec ((s.reg ra).digits s.cfg) ((s.reg rb).digits s.cfg) (by simp)
  rw [mag_eq, mag_eq, capacity]
  rwa [length_digits] at h

/-- The subtractor on two registers of a well-formed state (R143). -/
theorem subChain_reg (s : State) (h : s.wf) (ra rb : RegNum) :
    ((subChain ((s.reg ra).digits s.cfg) ((s.reg rb).digits s.cfg) 0).2 = 0 ↔ mag s rb ≤ mag s ra) ∧
    ((subChain ((s.reg ra).digits s.cfg) ((s.reg rb).digits s.cfg) 0).2 = 0 →
      listValue (subChain ((s.reg ra).digits s.cfg) ((s.reg rb).digits s.cfg) 0).1 = mag s ra - mag s rb) := by
  rw [mag_eq, mag_eq]
  exact subChain_spec _ _ (by simp) (reg_digits_le_nine s h ra) (reg_digits_le_nine s h rb)

/-- The multiplier on two registers of a well-formed state (R161). -/
theorem mulChain_reg (s : State) (h : s.wf) (ra rb : RegNum) :
    (mulChain s.cfg ((s.reg ra).digits s.cfg) ((s.reg rb).digits s.cfg)).1.length = s.cfg.N ∧
    (∀ v ∈ (mulChain s.cfg ((s.reg ra).digits s.cfg) ((s.reg rb).digits s.cfg)).1, v ≤ 9) ∧
    ((mulChain s.cfg ((s.reg ra).digits s.cfg) ((s.reg rb).digits s.cfg)).2 = false →
      listValue (mulChain s.cfg ((s.reg ra).digits s.cfg) ((s.reg rb).digits s.cfg)).1 = mulSum s ra rb) ∧
    ((mulChain s.cfg ((s.reg ra).digits s.cfg) ((s.reg rb).digits s.cfg)).2 = true ↔
      capacity s.cfg ≤ mulSum s ra rb) := by
  have hm := mulChain_spec s.cfg _ _ (length_digits s.cfg (s.reg rb)) (reg_digits_le_nine s h ra)
    (reg_digits_le_nine s h rb)
  have e : partialsFrom s.cfg 0 ((s.reg ra).digits s.cfg) (listValue ((s.reg rb).digits s.cfg)) = mulSum s ra rb := by
    rw [← mag_eq]; exact partialsFrom_map_range s.cfg _ _ _
  rwa [e] at hm

/-- The comparator on two registers of a well-formed state (R176). -/
theorem magOrdering_reg (s : State) (h : s.wf) (ra rb : RegNum) :
    magOrdering (combRead s ra) (combRead s rb) s.cfg.N = compare (mag s ra) (mag s rb) :=
  magOrdering_spec _ _ _ (comb_le_nine _ _ (h.2.2 ra)) (comb_le_nine _ _ (h.2.2 rb))

/-- All digits are 0 exactly when the magnitude is 0 (R175). -/
theorem isZero_iff (s : State) (r : RegNum) : isZero s r = true ↔ mag s r = 0 := by
  have e : mag s r = 0 ↔ ∀ k < s.cfg.N, (s.reg r).comb s.cfg k = 0 := digitSum_eq_zero _ _
  rw [e]
  simp [isZero, DReg.digits]

/-! ## The port: what a step can do, by the host's next action (R32, R66, R78, R215, R217) -/

theorem step_nil (s : State) (h : s.host = []) : step s = .next { s with rsp := none } := by
  unfold step portNext; rw [h]

theorem step_reset (s : State) (rest : List HostAction) (h : s.host = .reset :: rest) :
    step s = .next (applyReset { s with host := rest }) := by
  unfold step portNext; rw [h]

theorem step_command (s : State) (cmd : CmdWord) (w : Word) (rest : List HostAction) (h : s.host = .command cmd w :: rest)
    (hr : s.hasReset = true) : step s = answerCommand s cmd w rest := by
  have hp : portNext s = .accepted cmd (acceptCommand s w rest) := by unfold portNext; rw [h]; exact if_pos hr
  cases hd : decode cmd <;> simp only [step, answerCommand, hp, hd]

theorem step_command_before_reset (s : State) (cmd : CmdWord) (w : Word) (rest : List HostAction)
    (h : s.host = .command cmd w :: rest) (hr : s.hasReset = false) : step s = .refused .commandBeforeReset := by
  unfold step portNext; rw [h]; simp [hr]

theorem step_abandoned (s : State) (cmd : CmdWord) (w : Word) (rest : List HostAction)
    (h : s.host = .abandoned cmd w :: rest) (hr : s.hasReset = true) :
    step s = .next (applyReset { s with host := rest }) := by
  unfold step portNext; rw [h]; simp [hr]

theorem step_abandoned_before_reset (s : State) (cmd : CmdWord) (w : Word) (rest : List HostAction)
    (h : s.host = .abandoned cmd w :: rest) (hr : s.hasReset = false) : step s = .refused .commandBeforeReset := by
  unfold step portNext; rw [h]; simp [hr]

end Sys2Proof.Machine
end

