-- ==== Sys2Proof/Laws/PerInstr.lean ====
section
/-! SUPPORT. Families of facts about every command as syntax, one lemma for each constructor of Instr. -/

namespace Sys2Proof.Laws

/-- The command word of a command selects the command's row of the opcode map (30_encoding.md R76, R77). -/
def EncodeSelectsRow.Statement (i : Instr) : Prop := i.row.selects (encode i) = true

theorem EncodeSelectsRow.dget (r : RegNum) (q : Seq) (p : Nat) : EncodeSelectsRow.Statement (.dget r q p) := by
  show OpRow.selects rowDGET (encode (.dget r q p)) = true
  simp only [encode, OpRow.selects, rowDGET]
  rw [show (0xFC3F0000#32 : BitVec 32) = (63#6 ++ 0#3 ++ 0#1 ++ 3#2 ++ 15#4 ++ 0#16 : BitVec 32) by decide, formatD_and]
  simp [Seq.bit]

theorem EncodeSelectsRow.dset (r : RegNum) (q : Seq) (p : Nat) (v : Nat) : EncodeSelectsRow.Statement (.dset r q p v) := by
  show OpRow.selects rowDSET (encode (.dset r q p v)) = true
  simp only [encode, OpRow.selects, rowDSET]
  rw [show (0xFC300000#32 : BitVec 32) = (63#6 ++ 0#3 ++ 0#1 ++ 3#2 ++ 0#4 ++ 0#16 : BitVec 32) by decide, formatD_and]
  simp [Seq.bit]

theorem EncodeSelectsRow.gcnt (q : Seq) : EncodeSelectsRow.Statement (.gcnt q) := by
  show OpRow.selects rowGCNT (encode (.gcnt q)) = true
  simp only [encode, OpRow.selects, rowGCNT]
  rw [show (0xFFBFFFFF#32 : BitVec 32) = (63#6 ++ 7#3 ++ 0#1 ++ 3#2 ++ 15#4 ++ 65535#16 : BitVec 32) by decide, formatD_and]
  simp [Seq.bit]

theorem EncodeSelectsRow.ldg (r : RegNum) (q : Seq) (g : Nat) : EncodeSelectsRow.Statement (.ldg r q g) := by
  show OpRow.selects rowLDG (encode (.ldg r q g)) = true
  simp only [encode, OpRow.selects, rowLDG]
  rw [show (0xFC3F0000#32 : BitVec 32) = (63#6 ++ 0#3 ++ 0#1 ++ 3#2 ++ 15#4 ++ 0#16 : BitVec 32) by decide, formatD_and]
  simp [Seq.bit]

theorem EncodeSelectsRow.rdg (r : RegNum) (q : Seq) (g : Nat) : EncodeSelectsRow.Statement (.rdg r q g) := by
  show OpRow.selects rowRDG (encode (.rdg r q g)) = true
  simp only [encode, OpRow.selects, rowRDG]
  rw [show (0xFC3F0000#32 : BitVec 32) = (63#6 ++ 0#3 ++ 0#1 ++ 3#2 ++ 15#4 ++ 0#16 : BitVec 32) by decide, formatD_and]
  simp [Seq.bit]

theorem EncodeSelectsRow.clr (r : RegNum) : EncodeSelectsRow.Statement (.clr r) := by
  show OpRow.selects rowCLR (encode (.clr r)) = true
  simp only [encode, OpRow.selects, rowCLR]
  rw [show (0xFC7FFFFF#32 : BitVec 32) = (63#6 ++ 0#3 ++ 1#1 ++ 3#2 ++ 15#4 ++ 65535#16 : BitVec 32) by decide, formatD_and]
  simp [Seq.bit]

theorem EncodeSelectsRow.mov (rd : RegNum) (ra : RegNum) : EncodeSelectsRow.Statement (.mov rd ra) := by
  show OpRow.selects rowMOV (encode (.mov rd ra)) = true
  simp only [encode, OpRow.selects, rowMOV]
  rw [show (0xFC0FFFFF#32 : BitVec 32) = (63#6 ++ 0#3 ++ 0#3 ++ 7#3 ++ 131071#17 : BitVec 32) by decide, formatR_and]
  simp

theorem EncodeSelectsRow.iget (r : RegNum) (x : Int) : EncodeSelectsRow.Statement (.iget r x) := by
  show OpRow.selects rowIGET (encode (.iget r x)) = true
  simp only [encode, OpRow.selects, rowIGET]
  rw [show (0xFC7F0000#32 : BitVec 32) = (63#6 ++ 0#3 ++ 1#1 ++ 3#2 ++ 15#4 ++ 0#16 : BitVec 32) by decide, formatD_and]
  simp [Seq.bit]

theorem EncodeSelectsRow.iset (r : RegNum) (x : Int) (v : Nat) : EncodeSelectsRow.Statement (.iset r x v) := by
  show OpRow.selects rowISET (encode (.iset r x v)) = true
  simp only [encode, OpRow.selects, rowISET]
  rw [show (0xFC700000#32 : BitVec 32) = (63#6 ++ 0#3 ++ 1#1 ++ 3#2 ++ 0#4 ++ 0#16 : BitVec 32) by decide, formatD_and]
  simp [Seq.bit]

theorem EncodeSelectsRow.sget (r : RegNum) : EncodeSelectsRow.Statement (.sget r) := by
  show OpRow.selects rowSGET (encode (.sget r)) = true
  simp only [encode, OpRow.selects, rowSGET]
  rw [show (0xFC7FFFFF#32 : BitVec 32) = (63#6 ++ 0#3 ++ 1#1 ++ 3#2 ++ 15#4 ++ 65535#16 : BitVec 32) by decide, formatD_and]
  simp [Seq.bit]

theorem EncodeSelectsRow.sset (r : RegNum) (b : Bool) : EncodeSelectsRow.Statement (.sset r b) := by
  show OpRow.selects rowSSET (encode (.sset r b)) = true
  simp only [encode, OpRow.selects, rowSSET]
  rw [show (0xFC7EFFFF#32 : BitVec 32) = (63#6 ++ 0#3 ++ 1#1 ++ 3#2 ++ 14#4 ++ 65535#16 : BitVec 32) by decide, formatD_and]
  cases b <;> simp [Seq.bit]

theorem EncodeSelectsRow.dcnt (q : Seq) : EncodeSelectsRow.Statement (.dcnt q) := by
  show OpRow.selects rowDCNT (encode (.dcnt q)) = true
  simp only [encode, OpRow.selects, rowDCNT]
  rw [show (0xFFBFFFFF#32 : BitVec 32) = (63#6 ++ 7#3 ++ 0#1 ++ 3#2 ++ 15#4 ++ 65535#16 : BitVec 32) by decide, formatD_and]
  simp [Seq.bit]

theorem EncodeSelectsRow.add (rd : RegNum) (ra : RegNum) (rb : RegNum) : EncodeSelectsRow.Statement (.add rd ra rb) := by
  show OpRow.selects rowADD (encode (.add rd ra rb)) = true
  simp only [encode, OpRow.selects, rowADD]
  rw [show (0xFC01FFFF#32 : BitVec 32) = (63#6 ++ 0#3 ++ 0#3 ++ 0#3 ++ 131071#17 : BitVec 32) by decide, formatR_and]
  simp

theorem EncodeSelectsRow.sub (rd : RegNum) (ra : RegNum) (rb : RegNum) : EncodeSelectsRow.Statement (.sub rd ra rb) := by
  show OpRow.selects rowSUB (encode (.sub rd ra rb)) = true
  simp only [encode, OpRow.selects, rowSUB]
  rw [show (0xFC01FFFF#32 : BitVec 32) = (63#6 ++ 0#3 ++ 0#3 ++ 0#3 ++ 131071#17 : BitVec 32) by decide, formatR_and]
  simp

theorem EncodeSelectsRow.mul (rd : RegNum) (ra : RegNum) (rb : RegNum) : EncodeSelectsRow.Statement (.mul rd ra rb) := by
  show OpRow.selects rowMUL (encode (.mul rd ra rb)) = true
  simp only [encode, OpRow.selects, rowMUL]
  rw [show (0xFC01FFFF#32 : BitVec 32) = (63#6 ++ 0#3 ++ 0#3 ++ 0#3 ++ 131071#17 : BitVec 32) by decide, formatR_and]
  simp

theorem EncodeSelectsRow.div (rd : RegNum) (ra : RegNum) (rb : RegNum) : EncodeSelectsRow.Statement (.div rd ra rb) := by
  show OpRow.selects rowDIV (encode (.div rd ra rb)) = true
  simp only [encode, OpRow.selects, rowDIV]
  rw [show (0xFC01FFFF#32 : BitVec 32) = (63#6 ++ 0#3 ++ 0#3 ++ 0#3 ++ 131071#17 : BitVec 32) by decide, formatR_and]
  simp

theorem EncodeSelectsRow.cmp (ra : RegNum) (rb : RegNum) : EncodeSelectsRow.Statement (.cmp ra rb) := by
  show OpRow.selects rowCMP (encode (.cmp ra rb)) = true
  simp only [encode, OpRow.selects, rowCMP]
  rw [show (0xFF81FFFF#32 : BitVec 32) = (63#6 ++ 7#3 ++ 0#3 ++ 0#3 ++ 131071#17 : BitVec 32) by decide, formatR_and]
  simp

end Sys2Proof.Laws
end

