-- ==== Sys2Proof/Tests/Slice0.lean ====
section
/-! SUPPORT. Tests: the well-formedness smoke test, words written out from the spec's encodings, one-step tests from the
spec's worked examples and vectors (95_test_vectors.md), and for each obligation with hypotheses a state and operands
that meet them. Expected values are the spec's. -/

namespace Sys2Proof.Machine

/-! ## Helpers -/

/-- The reset state of a configuration with its first registers replaced. -/
def testState (c : Config) (ds : List DReg) : State :=
  { State.resetFor c with regs := ⟨((ds ++ List.replicate 8 (DReg.zero c)).take 8).toArray, by simp⟩ }

/-- A register of CFG-A: integer groups 0 and 1, fractional group 0, sign. -/
def testReg (i0 i1 f0 : Word) (sgn : Bool := false) : DReg := { ig := [i0, i1], fg := [f0], sign := sgn }

/-- The state a result goes on with, or the state given. -/
def nextOr (x : Result) (s : State) : State :=
  match x with
  | .next t => t
  | .fault _ => s
  | .refused _ => s

/-- The state after a command. -/
def after (i : Instr) (s : State) : State := nextOr (exec i s) s

/-- The status code and the data a command answers with. -/
def answerOf (i : Instr) (s : State) : Option (Nat × Nat) :=
  (after i s).rsp.map fun x => (x.status.code.toNat, x.data.toNat)

/-- `D0 = 123.45`, `D1 = 001.05` (scenario 1). -/
def s1 : State := testState .cfgA [testReg 0x23 0x01 0x45, testReg 0x01 0x00 0x05]
/-- `D0 = 999.99`, `D1 = 000.01` (scenario 2). -/
def s2 : State := testState .cfgA [testReg 0x99 0x09 0x99, testReg 0 0 0x01]
/-- `D0 = 005.00`, `D1 = 010.00` (scenario 4). -/
def s4 : State := testState .cfgA [testReg 0x05 0x00 0x00, testReg 0x10 0 0]
/-- `D0 = 012.00`, `D1 = 003.00` (scenario 5). -/
def s5 : State := testState .cfgA [testReg 0x12 0x00 0x00, testReg 0x03 0 0]
/-- `D0 = 007.50` (scenario 6). -/
def s6 : State := testState .cfgA [testReg 0x07 0x00 0x50]
/-- `D0 = -123.45`, `D1 = -123.50` (44_compare_divide.md, CMP example). -/
def s7 : State := testState .cfgA [testReg 0x23 0x01 0x45 true, testReg 0x23 0x01 0x50 true]
/-- `D0 = -000.00`. -/
def s8 : State := testState .cfgA [testReg 0 0 0 true]

/-! ## Well-formed commands: each check refuses an ill-formed term -/

theorem smoke_dget_idx : ¬ (Instr.dget 0 .I 65536).WellFormed := by decide
theorem smoke_dset_idx : ¬ (Instr.dset 0 .I 65536 0).WellFormed := by decide
theorem smoke_dset_val : ¬ (Instr.dset 0 .I 0 16).WellFormed := by decide
theorem smoke_ldg_idx : ¬ (Instr.ldg 0 .I 65536).WellFormed := by decide
theorem smoke_rdg_idx : ¬ (Instr.rdg 0 .F 65536).WellFormed := by decide
theorem smoke_iget_above : ¬ (Instr.iget 0 32768).WellFormed := by decide
theorem smoke_iget_below : ¬ (Instr.iget 0 (-32769)).WellFormed := by decide
theorem smoke_iset_sidx : ¬ (Instr.iset 0 (-32769) 0).WellFormed := by decide
theorem smoke_iset_val : ¬ (Instr.iset 0 0 16).WellFormed := by decide
theorem smoke_config : ¬ (Config.mk .w8 0 0).wf ∧ ¬ (Config.mk .w8 32768 0).wf ∧ ¬ (Config.mk .w8 1 32768).wf := by
  decide
/-- A field above 9, a nonzero spare nibble, and a missing group are each refused (R24, R25, R21). -/
theorem smoke_register : ¬ (testReg 0x0A 0 0).wf .cfgA ∧ ¬ (testReg 0 0x10 0).wf .cfgA ∧
    ¬ (DReg.mk [0#64] [0#64] false).wf .cfgA := by decide

/-! ## Decoding: words written out from the spec (the examples of 40 to 44, R94) -/

theorem test_decode_dget : decode 0x04400001#32 = some (.dget 0 .F 1) := by decide
theorem test_decode_dset : decode 0x09470001#32 = some (.dset 2 .F 1 7) := by decide
theorem test_decode_gcnt : decode 0x0C400000#32 = some (.gcnt .F) := by decide
theorem test_decode_ldg : decode 0x10800001#32 = some (.ldg 1 .I 1) := by decide
theorem test_decode_rdg : decode 0x14400000#32 = some (.rdg 0 .F 0) := by decide
theorem test_decode_clr : decode 0x21800000#32 = some (.clr 3) := by decide
theorem test_decode_mov : decode 0x24800000#32 = some (.mov 1 0) := by decide
theorem test_decode_iget : decode 0x2800FFFE#32 = some (.iget 0 (-2)) := by decide
theorem test_decode_iset : decode 0x2C05FFFF#32 = some (.iset 0 (-1) 5) := by decide
theorem test_decode_sget : decode 0x30000000#32 = some (.sget 0) := by decide
theorem test_decode_sset : decode 0x34010000#32 = some (.sset 0 true) := by decide
theorem test_decode_dcnt : decode 0x38400000#32 = some (.dcnt .F) := by decide
theorem test_decode_add : decode 0x40020000#32 = some (.add 0 0 1) := by decide
theorem test_decode_sub : decode 0x44020000#32 = some (.sub 0 0 1) := by decide
theorem test_decode_mul : decode 0x48800000#32 = some (.mul 1 0 0) := by decide
theorem test_decode_div : decode 0x4C020000#32 = some (.div 0 0 1) := by decide
theorem test_decode_cmp : decode 0x50020000#32 = some (.cmp 0 1) := by decide
/-- Words with a must-be-zero bit set, and opcodes outside the map (R76, R78). -/
theorem test_decode_illegal : [0x04010000#32, 0x20400000#32, 0x34020000#32, 0x40000001#32, 0x50820000#32, 0x00000000#32,
    0x18000000#32, 0x3C000000#32, 0x54000000#32, 0xFFFFFFFF#32].map decode = List.replicate 10 none := by decide
/-- The table's numbering: a word of 32 bits, and nothing above it. -/
theorem test_table_word : decodeTableWord 32 0x4C020000 = some (.div 0 0 1) ∧
    decodeTableWord 40 0x0140020000 = none := by decide

/-! ## One command each -/

theorem test_dget_reads : answerOf (.dget 0 .I 2) s1 = some (0, 1) := by decide
theorem test_dget_pads : answerOf (.dget 0 .F 2) s1 = some (0, 0) ∧ answerOf (.dget 0 .I 3) s1 = some (4, 0) := by decide
theorem test_dset_writes : (after (.dset 2 .F 1 7) State.reset).reg 2 = testReg 0 0 0x70 := by decide
theorem test_dset_address_first : answerOf (.dset 0 .I 3 10) s1 = some (4, 0) ∧ answerOf (.dset 0 .F 1 10) s1 = some (3, 0) := by
  decide
theorem test_gcnt : answerOf (.gcnt .I) s1 = some (0, 2) ∧ answerOf (.gcnt .F) s1 = some (0, 1) := by decide
theorem test_ldg_writes :
    (after (.ldg 1 .I 1) { s1 with wdata := 0x09#64 }).reg 1 = testReg 0x01 0x09 0x05 := by decide
theorem test_ldg_refuses : answerOf (.ldg 1 .I 1) { s1 with wdata := 0x10#64 } = some (4, 0) ∧
    answerOf (.ldg 1 .I 1) { s1 with wdata := 0xA1#64 } = some (3, 0) := by decide
theorem test_rdg : answerOf (.rdg 0 .I 0) s1 = some (0, 0x23) ∧ answerOf (.rdg 0 .I 2) s1 = some (4, 0) := by decide
theorem test_clr : (after (.clr 0) s7).reg 0 = DReg.zero .cfgA ∧ (after (.clr 0) s7).reg 1 = s7.reg 1 := by decide
theorem test_mov : (after (.mov 1 0) s7).reg 1 = testReg 0x23 0x01 0x45 true := by decide
theorem test_iget_reads : answerOf (.iget 0 (-1)) s6 = some (0, 5) := by decide
theorem test_iget_refuses : answerOf (.iget 0 (-3)) s6 = some (4, 0) ∧ answerOf (.iget 0 3) s6 = some (4, 0) := by decide
theorem test_iset_writes : (after (.iset 0 (-2) 9) s6).reg 0 = testReg 0x07 0x00 0x59 := by decide
theorem test_iset_refuses : answerOf (.iset 0 1 12) s6 = some (3, 0) ∧ answerOf (.iset 0 3 12) s6 = some (4, 0) := by decide
theorem test_sget : answerOf (.sget 0) s7 = some (0, 1) := by decide
theorem test_sset : (after (.sset 0 true) s6).reg 0 = testReg 0x07 0x00 0x50 true := by decide
theorem test_dcnt : answerOf (.dcnt .I) s1 = some (0, 3) ∧ answerOf (.dcnt .F) s1 = some (0, 2) := by decide
/-- Scenario 1. -/
theorem test_add : (after (.add 0 0 1) s1).reg 0 = testReg 0x24 0x01 0x50 := by decide
/-- Scenario 2. -/
theorem test_add_overflow : answerOf (.add 0 0 1) s2 = some (1, 0) ∧ (after (.add 0 0 1) s2).regs = s2.regs := by decide
/-- The derived example `100.00 - 000.01 = 099.99`. -/
theorem test_sub : (after (.sub 2 0 1) (testState .cfgA [testReg 0 0x01 0, testReg 0 0 0x01])).reg 2
    = testReg 0x99 0 0x99 := by decide
/-- Scenario 4. -/
theorem test_sub_underflow : answerOf (.sub 0 0 1) s4 = some (2, 0) ∧ (after (.sub 0 0 1) s4).regs = s4.regs := by decide
/-- Scenario 5. -/
theorem test_mul : (after (.mul 0 0 1) s5).reg 0 = testReg 0x36 0 0 := by decide
/-- Scenario 5, `099.00 * 099.00`. -/
theorem test_mul_overflow : answerOf (.mul 1 0 0) (testState .cfgA [testReg 0x99 0 0]) = some (1, 0) := by decide
theorem test_div : answerOf (.div 0 0 1) s1 = some (6, 0) ∧ (after (.div 0 0 1) s1).regs = s1.regs := by decide
theorem test_cmp_negative : answerOf (.cmp 0 1) s7 = some (0, 2) := by decide
theorem test_cmp_negative_zero : answerOf (.cmp 0 1) s8 = some (0, 0) := by decide

/-! ## The step and the assembler -/

/-- The word of the opcode table runs as the first command after reset: DIV answers 6. -/
theorem test_step_first_command :
    (nextOr (step (State.reset.withFetchWord 32 0x4C020000)) State.reset).rsp = some ⟨.divisionUnspecified, 0#64⟩ := by
  decide
theorem test_step_illegal :
    (nextOr (step (offerCommand s1 0xFFFFFFFF#32 0#64)) s1).rsp = some ⟨.illegalCommand, 0#64⟩ := by decide
/-- Operands in the order of R92, a hexadecimal number and a comment (R91). -/
theorem test_assemble_ldg : assembleLine "LDG D0, I, 0, 0x23 ; 3 and 2".toList
    = some ⟨.ldg 0 .I 0, 0x23#64⟩ := by decide
theorem test_assemble_compound : assembleLine "ADD D0, D1".toList = some ⟨.add 0 0 1, 0#64⟩ := by decide

/-! ## Witnesses: the hypotheses of the obligations can be met -/

/-- The state with one command on the port. -/
def offered (s : State) (cmd : CmdWord) : State := offerCommand s cmd 0x45#64

theorem witness_wf : s1.wf ∧ s2.wf ∧ s4.wf ∧ s5.wf ∧ s6.wf ∧ s7.wf ∧ s8.wf ∧ State.reset.wf := by
  refine ⟨?_, ?_, ?_, ?_, ?_, ?_, ?_, ?_⟩ <;> decide
theorem witness_DecodeOfEncodeGivesTheCommand :
    (Instr.dget 7 .F 65535).WellFormed ∧ (Instr.dset 7 .F 65535 15).WellFormed ∧ (Instr.gcnt .F).WellFormed ∧
    (Instr.ldg 7 .F 65535).WellFormed ∧ (Instr.rdg 7 .F 65535).WellFormed ∧ (Instr.iget 7 (-32768)).WellFormed ∧
    (Instr.iset 7 32767 15).WellFormed ∧ (Instr.cmp 7 7).WellFormed := by decide
theorem witness_EncodeOfDecodeGivesTheWord : decode 0x2F8F8000#32 = some (.iset 7 (-32768) 15) := by decide
theorem witness_StepRunsTheDecodedCommand : (offered s1 0x40020000#32).hasReset = true ∧
    (offered s1 0x40020000#32).host = .command 0x40020000#32 0x45#64 :: [] ∧
    decode 0x40020000#32 = some (.add 0 0 1) := by decide
theorem witness_IllegalWordsAreAnsweredAndChangeNothing : (offered s1 0x18000000#32).hasReset = true ∧
    (offered s1 0x18000000#32).host = .command 0x18000000#32 0x45#64 :: [] ∧ decode 0x18000000#32 = none ∧
    0x15#6 ≤ (0x54000000#32).extractLsb' 26 6 := by decide
theorem witness_ResetGivesTheResetState : ({ s1 with host := [.reset] } : State).host = .reset :: [] := by decide
theorem witness_AbandonedCommandLeavesTheResetState :
    ({ s1 with host := [.abandoned 0x40020000#32 0#64] } : State).hasReset = true ∧
    ({ s1 with host := [.abandoned 0x40020000#32 0#64] } : State).host = .abandoned 0x40020000#32 0#64 :: [] := by decide
theorem witness_CommandBeforeResetIsRefused :
    ({ s1 with host := [.command 0x40020000#32 0#64], hasReset := false } : State).hasReset = false ∧
    ({ s1 with host := [.command 0x40020000#32 0#64], hasReset := false } : State).host
      = .command 0x40020000#32 0#64 :: [] := by decide
theorem witness_EveryAcceptedCommandIsAnswered : (offered s2 0x40020000#32).hasReset = true ∧
    (offered s2 0x40020000#32).host = .command 0x40020000#32 0x45#64 :: [] := by decide
theorem witness_CommandsTakeEffectInOrder :
    ({ s1 with host := [.command 0x40020000#32 0#64, .command 0#32 1#64] } : State).hasReset = true ∧
    ({ s1 with host := [.command 0x40020000#32 0#64, .command 0#32 1#64] } : State).host
      = [(0x40020000#32, 0#64), (0#32, 1#64)].map (fun x => .command x.1 x.2) := by decide
theorem witness_StepKeepsStatesWellFormed : (offered s1 0x40020000#32).wf ∧
    step (offered s1 0x40020000#32) = .next (nextOr (step (offered s1 0x40020000#32)) s1) := ⟨by decide, rfl⟩
theorem witness_StepNeverChangesTheParameters :
    step (offered s7 0x10400000#32) = .next (nextOr (step (offered s7 0x10400000#32)) s7) := rfl
theorem witness_ResetStateIsWellFormed : Config.cfgA.wf ∧ (Config.mk .w64 1 0).wf ∧ (Config.mk .w8 32767 32767).wf := by
  decide
theorem witness_ResponseDataFitsThePort : s1.wf ∧ exec (.rdg 0 .F 0) s1 = .next (after (.rdg 0 .F 0) s1) ∧
    (after (.rdg 0 .F 0) s1).rsp = some ⟨.ok, 0x45#64⟩ := ⟨by decide, rfl, by decide⟩
theorem witness_StatusIsTheTablesStatus : s1.wf ∧ (offered s1 0x10800001#32).wf ∧
    (offered s1 0x10800001#32).host = .command 0x10800001#32 0x45#64 :: [] ∧
    decode 0x10800001#32 = some (.ldg 1 .I 1) ∧ (offered s1 0x50820000#32).hasReset = true ∧
    (offered s1 0x50820000#32).host = .command 0x50820000#32 0x45#64 :: [] ∧ decode 0x50820000#32 = none :=
  ⟨by decide, by decide, by decide, by decide, by decide, by decide, by decide⟩
theorem witness_FailedCommandRecordsOnlyItsStatus : exec (.add 0 0 1) s2 = .next (after (.add 0 0 1) s2) ∧
    (after (.add 0 0 1) s2).rsp = some ⟨.overflow, 0#64⟩ ∧ Status.overflow ≠ .ok ∧
    (offered s2 0x40020000#32).host = .command 0x40020000#32 0x45#64 :: [] ∧
    step (offered s2 0x40020000#32) = .next (nextOr (step (offered s2 0x40020000#32)) s2) ∧
    (nextOr (step (offered s2 0x40020000#32)) s2).rsp = some ⟨.overflow, 0#64⟩ :=
  ⟨rfl, by decide, by decide, by decide, rfl, by decide⟩
theorem witness_EveryCommandResponds : (offered s1 0xFFFFFFFF#32).hasReset = true ∧
    (offered s1 0xFFFFFFFF#32).host = .command 0xFFFFFFFF#32 0x45#64 :: [] := by decide
theorem witness_OnlyTheDestinationRegisterChanges : exec (.mul 2 0 1) s5 = .next (after (.mul 2 0 1) s5) ∧
    destOf (.mul 2 0 1) ≠ some 0 := ⟨rfl, by decide⟩
theorem witness_ReadsAreFreeAndPlainWritesIdempotent :
    (isRead (.cmp 0 1) = true ∧ exec (.cmp 0 1) s7 = .next (after (.cmp 0 1) s7)) ∧
    (isIdempotentWrite (.iset 0 (-2) 9) = true ∧ exec (.iset 0 (-2) 9) s6 = .next (after (.iset 0 (-2) 9) s6)) :=
  ⟨⟨by decide, rfl⟩, by decide, rfl⟩
theorem witness_OnlyLdgReadsTheWriteData : (∀ r q g, Instr.sset 0 true ≠ .ldg r q g) ∧
    exec (.sset 0 true) s6 = .next (after (.sset 0 true) s6) := ⟨by simp, rfl⟩
theorem witness_RightOperandSignHasNoEffect : (1 : RegNum) ≠ 0 ∧
    Instr.sub 1 0 1 ∈ [Instr.add 1 0 1, Instr.sub 1 0 1, Instr.mul 1 0 1] := by decide
theorem witness_digit_write : s1.wf ∧ 2 < s1.cfg.cnt .I ∧ 1 < s1.cfg.cnt .F ∧ 9 ≤ 9 := by decide
theorem witness_GroupAndDigitAccessSeeTheSameBits : s1.wf ∧ 1 < s1.cfg.gcnt .I ∧ 0 < s1.cfg.DPG ∧
    1 * s1.cfg.DPG + 0 < s1.cfg.cnt .I := by decide
theorem witness_DgetReadsADigitOrPads : 2 < s1.cfg.cnt .I ∧ s1.cfg.FD ≤ 2 ∧ s1.cfg.ID ≤ 3 := by decide
theorem witness_DsetChecksTheAddressFirst : s1.cfg.cnt .F ≤ 2 ∧ 2 < s1.cfg.cnt .I ∧ 10 ≤ 10 := by decide
/-- A group whose second nibble is spare, with legal write data. -/
theorem witness_LdgWritesALegalGroup : s1.wf ∧ 1 < s1.cfg.gcnt .I ∧
    (∀ o < s1.cfg.DPG, extractField ({ s1 with wdata := 0x09#64 } : State).wdata o ≤ 9) ∧
    (∀ o < s1.cfg.DPG, s1.cfg.cnt .I ≤ 1 * s1.cfg.DPG + o →
      extractField ({ s1 with wdata := 0x09#64 } : State).wdata o = 0) := by decide
theorem witness_LdgChecksIndexThenDigitsThenSpares : s1.cfg.gcnt .F ≤ 1 ∧ 1 < s1.cfg.gcnt .I ∧
    (∃ o < s1.cfg.DPG, 10 ≤ extractField 0xA1#64 o) ∧ (∀ o < s1.cfg.DPG, extractField 0x11#64 o ≤ 9) ∧
    (∃ o < s1.cfg.DPG, s1.cfg.cnt .I ≤ 1 * s1.cfg.DPG + o ∧ extractField 0x11#64 o ≠ 0) := by decide
theorem witness_RdgReadsAnExistingGroup : 1 < s1.cfg.gcnt .I ∧ s1.cfg.gcnt .I ≤ 2 := by decide
theorem witness_RdgReadsBackWhatLdgWrote : s1.wf ∧ runsOk (.ldg 1 .I 1) s1 (after (.ldg 1 .I 1) s1) :=
  ⟨by decide, rfl, by decide⟩
theorem witness_IgetReadsBySignedIndex : ((0 : Int) ≤ 2 ∧ (2 : Int) < s6.cfg.ID) ∧
    ((-2 : Int) < 0 ∧ -(s6.cfg.FD : Int) ≤ -2) ∧ ((s6.cfg.ID : Int) ≤ 3) ∧ ((-3 : Int) < -(s6.cfg.FD : Int)) := by decide
theorem witness_IsetWritesBySignedIndex : s6.wf ∧ 9 ≤ 9 ∧ ((0 : Int) ≤ 2 ∧ (2 : Int) < s6.cfg.ID ∧ (2 : Int) = (2 : Nat)) ∧
    ((-2 : Int) < 0 ∧ -(s6.cfg.FD : Int) ≤ -2 ∧ (s6.cfg.FD : Int) + -2 = (0 : Nat)) := by decide
theorem witness_IsetIsDsetAtItsPosition : -(s6.cfg.FD : Int) ≤ -2 ∧ (-2 : Int) < s6.cfg.ID ∧ 10 ≤ 12 ∧
    (s6.cfg.ID : Int) ≤ 3 := by decide
/-- `998.95 + 001.04 = 999.99` is the largest sum; one more overflows. -/
theorem witness_AddLeavesTheSumOrOverflows :
    mag (testState .cfgA [testReg 0x98 0x09 0x95, testReg 0x01 0 0x04]) 0
      + mag (testState .cfgA [testReg 0x98 0x09 0x95, testReg 0x01 0 0x04]) 1 = 10 ^ Config.cfgA.N - 1 ∧
    s2.wf ∧ 10 ^ s2.cfg.N ≤ mag s2 0 + mag s2 1 := by decide
theorem witness_SubLeavesTheDifferenceOrUnderflows : s4.wf ∧ mag s4 0 ≤ mag s4 1 ∧ mag s4 0 < mag s4 1 := by decide
theorem witness_AddIsAssociative : s1.wf ∧ runsOk (.add 3 0 1) s1 (after (.add 3 0 1) s1) ∧
    runsOk (.add 3 3 2) (after (.add 3 0 1) s1) (after (.add 3 3 2) (after (.add 3 0 1) s1)) ∧
    runsOk (.add 3 1 2) s1 (after (.add 3 1 2) s1) ∧
    runsOk (.add 3 0 3) (after (.add 3 1 2) s1) (after (.add 3 0 3) (after (.add 3 1 2) s1)) :=
  ⟨by decide, ⟨rfl, by decide⟩, ⟨rfl, by decide⟩, ⟨rfl, by decide⟩, rfl, by decide⟩
theorem witness_ZeroIsTheIdentityAndSelfDifferenceIsZero : s1.wf ∧ mag s1 2 = 0 := by decide
theorem witness_MulLeavesTheSumOfPartialProducts : s5.wf ∧ mulSum s5 0 1 < 10 ^ s5.cfg.N ∧
    10 ^ s2.cfg.N ≤ mulSum s2 0 0 ∧ s2.wf ∧ s5.cfg.FD ≤ 2 := by decide
theorem witness_MulTruncationIsBounded : s5.wf ∧ runsOk (.mul 2 0 1) s5 (after (.mul 2 0 1) s5) ∧
    (∀ i < s5.cfg.FD, 10 ^ s5.cfg.FD ∣ combRead s5 0 i * 10 ^ i * mag s5 1) ∧
    (∀ i < s5.cfg.FD, combRead s5 0 i = 0 ∧ combRead s5 1 i = 0) := ⟨by decide, ⟨rfl, by decide⟩, by decide, by decide⟩
/-- `ID = 1`, `FD = 1`, `D0 = 0.5`, `D1 = 0.1`: the last width at which nothing is lost against `E`. -/
def s10 : State := testState ⟨.w8, 1, 1⟩ [⟨[0], [5], false⟩, ⟨[0], [1], false⟩]
theorem witness_MulTruncationIsBounded_oneDigit : s10.wf ∧ s10.cfg.FD ≤ 1 ∧
    runsOk (.mul 2 0 1) s10 (after (.mul 2 0 1) s10) := ⟨by decide, by decide, rfl, by decide⟩
/-- `ID = 1`, `FD = 2`, `D0 = 1.12`, `D1 = 8.93` (43_multiply.md R163's example). -/
def s9 : State := testState ⟨.w8, 1, 2⟩ [⟨[1], [0x12], false⟩, ⟨[8], [0x93], false⟩]
theorem witness_MulOverflowIsDecidedByTheSum : s9.wf ∧ 10 ^ s9.cfg.N ≤ mulExact s9 0 1 ∧
    mulSum s9 0 1 < 10 ^ s9.cfg.N ∧ 10 ^ s2.cfg.N ≤ mulSum s2 0 0 := by decide
theorem witness_MulCommutesWhenNothingIsLost : s5.wf ∧ mulSum s5 0 1 = mulExact s5 0 1 ∧
    mulSum s5 1 0 = mulExact s5 1 0 := by decide
theorem witness_MulDistributesWhenNothingIsDropped : s5.wf ∧
    runsOk (.add 3 1 1) s5 (after (.add 3 1 1) s5) ∧
    runsOk (.mul 3 0 3) (after (.add 3 1 1) s5) (after (.mul 3 0 3) (after (.add 3 1 1) s5)) ∧
    runsOk (.mul 4 0 1) s5 (after (.mul 4 0 1) s5) ∧
    runsOk (.mul 3 0 1) (after (.mul 4 0 1) s5) (after (.mul 3 0 1) (after (.mul 4 0 1) s5)) ∧
    runsOk (.add 3 4 3) (after (.mul 3 0 1) (after (.mul 4 0 1) s5))
      (after (.add 3 4 3) (after (.mul 3 0 1) (after (.mul 4 0 1) s5))) ∧
    dropsNoDigit (after (.add 3 1 1) s5) 0 3 ∧ dropsNoDigit s5 0 1 :=
  ⟨by decide, ⟨rfl, by decide⟩, ⟨rfl, by decide⟩, ⟨rfl, by decide⟩, ⟨rfl, by decide⟩, ⟨rfl, by decide⟩, by decide,
    by decide⟩

end Sys2Proof.Machine
end

section
/-! What a command can do to the block, said once for all 17 commands (00_scope.md R17, 10_state.md R26, R33). -/

namespace Sys2Proof.Machine

/-! ## The three things a command can do -/

/-- What command `i` can answer in state `s`: it fails and writes nothing; it is one of those with no destination and
reports data, writing nothing; or it writes its destination and reports Ok, and what it writes satisfies R24 and R25
when the state does. -/
inductive CommandEffect (i : Instr) (s : State) : Result → Prop where
  | fails (st : Status) (hst : st ≠ .ok) : CommandEffect i s (raise st s)
  | reads (data : Word) (hi : destOf i = none) : CommandEffect i s (respond .ok data s)
  | writes (rd : RegNum) (d : DReg) (hi : destOf i = some rd) (hd : s.wf → d.wf s.cfg) :
    CommandEffect i s (respondOk (s.setReg rd d))

/-- Whatever a command can do, the block goes on, in a well-formed state if it was in one. -/
theorem CommandEffect.next_wf {i : Instr} {s : State} {x : Result} (h : CommandEffect i s x) (hs : s.wf) :
    ∃ t, x = .next t ∧ t.wf := by
  cases h with
  | fails st _ => exact ⟨_, raise_eq st s, withRsp_wf s hs _⟩
  | reads data _ => exact ⟨_, respond_eq .ok data s, withRsp_wf s hs _⟩
  | writes rd d _ hd => exact ⟨_, respondOk_eq _, withRsp_wf _ (setReg_wf s hs rd d (hd hs)) _⟩

section
variable {i : Instr} {s : State} {r : RegNum} (hi : destOf i = some r)
include hi

/-- A digit write at a position of the sequence, with a digit (R45, R50). -/
theorem digitWrite_effect {q : Seq} {p v : Nat} (hp : p < s.cfg.cnt q) (hv : v ≤ 9) :
    CommandEffect i s (respondOk (digitWrite s r q p v)) :=
  .writes r _ hi fun ⟨_, _, hregs⟩ => setDigit_wf s.cfg _ (hregs r) q p v hp hv

/-- A group write of legal contents to a group that exists (R52, R103). -/
theorem groupWrite_effect {q : Seq} {g : Nat} {w : Word} (hg : g < s.cfg.gcnt q) (hw : groupLegal s.cfg q g w) :
    CommandEffect i s (respondOk (groupWrite s r q g w)) :=
  .writes r _ hi fun ⟨_, _, hregs⟩ => setGroup_wf s.cfg _ (hregs r) q g w hg hw

/-- The commit of a full buffer of digits, with any sign (R140). -/
theorem commitValue_effect {ds : List Nat} {b : Bool} (hds : s.wf → ds.length = s.cfg.N ∧ ∀ v ∈ ds, v ≤ 9) :
    CommandEffect i s (respondOk (commitValue s r ds b)) := by
  refine .writes r _ hi fun hs => withSign_wf s.cfg _ ?_ b
  obtain ⟨hlen, hdig⟩ := hds hs
  obtain ⟨_, _, hregs⟩ := hs
  exact setCombs_wf s.cfg _ (hregs r) 0 ds (by omega) hdig

end

/-! ## The commands whose outcome depends on an operand check -/

/-- A digit write is refused with an error, never with Ok (R101). -/
theorem digitWriteError_ne_ok (c : Config) (q : Seq) (p v : Nat) (e : Status) (h : digitWriteError c q p v = some e) :
    e ≠ .ok := by
  rintro rfl
  unfold digitWriteError at h
  split_ifs at h <;> cases h

/-- A group write is refused with an error, never with Ok (R103). -/
theorem groupWriteError_ne_ok (c : Config) (q : Seq) (g : Nat) (w : Word) (e : Status)
    (h : groupWriteError c q g w = some e) : e ≠ .ok := by
  rintro rfl
  unfold groupWriteError at h
  split_ifs at h <;> cases h

theorem execDget_effect (r : RegNum) (q : Seq) (p : Nat) (s : State) :
    CommandEffect (.dget r q p) s (execDget r q p s) := by
  unfold execDget
  split
  · exact .reads _ rfl
  · split
    · exact .reads _ rfl
    · exact .fails _ (by decide)

theorem execDset_effect (r : RegNum) (q : Seq) (p v : Nat) (s : State) :
    CommandEffect (.dset r q p v) s (execDset r q p v s) := by
  unfold execDset
  split
  next e he => exact .fails e (digitWriteError_ne_ok s.cfg q p v e he)
  next he =>
    obtain ⟨hp, hv⟩ := (digitWriteError_eq_none s.cfg q p v).mp he
    exact digitWrite_effect rfl hp hv

theorem execLdg_effect (r : RegNum) (q : Seq) (g : Nat) (s : State) :
    CommandEffect (.ldg r q g) s (execLdg r q g s) := by
  unfold execLdg
  split
  next e he => exact .fails e (groupWriteError_ne_ok s.cfg q g _ e he)
  next he =>
    obtain ⟨hg, hw⟩ := (groupWriteError_eq_none s q g).mp he
    exact groupWrite_effect rfl hg hw

theorem execRdg_effect (r : RegNum) (q : Seq) (g : Nat) (s : State) :
    CommandEffect (.rdg r q g) s (execRdg r q g s) := by
  unfold execRdg
  split
  · exact .fails _ (by decide)
  · exact .reads _ rfl

theorem execIget_effect (r : RegNum) (x : Int) (s : State) :
    CommandEffect (.iget r x) s (execIget r x s) := by
  unfold execIget
  split
  · exact .fails _ (by decide)
  · exact .reads _ rfl

theorem execIset_effect (r : RegNum) (x : Int) (v : Nat) (s : State) :
    CommandEffect (.iset r x v) s (execIset r x v s) := by
  unfold execIset
  split
  next => exact .fails _ (by decide)
  next q p hpos =>
    obtain ⟨hp, _⟩ := signedPosition_eq_some s.cfg x q p hpos
    split
    next => exact .fails _ (by decide)
    next hv => exact digitWrite_effect rfl hp (by omega)

/-! ## The arithmetic commands -/

theorem execAdd_effect (rd ra rb : RegNum) (s : State) : CommandEffect (.add rd ra rb) s (execAdd rd ra rb s) := by
  unfold execAdd
  dsimp only
  split
  · exact .fails _ (by decide)
  · exact commitValue_effect rfl fun _ =>
      ⟨(addChain_length _ _ 0 (by simp)).trans (length_digits _ _), addChain_digits _ _ 0⟩

theorem execSub_effect (rd ra rb : RegNum) (s : State) : CommandEffect (.sub rd ra rb) s (execSub rd ra rb s) := by
  unfold execSub
  dsimp only
  split
  · exact .fails _ (by decide)
  · exact commitValue_effect rfl fun hs =>
      ⟨(subChain_length _ _ 0 (by simp)).trans (length_digits _ _),
        subChain_digits _ _ 0 (by decide) (reg_digits_le_nine s hs ra) (reg_digits_le_nine s hs rb)⟩

theorem execMul_effect (rd ra rb : RegNum) (s : State) : CommandEffect (.mul rd ra rb) s (execMul rd ra rb s) := by
  unfold execMul
  dsimp only
  split
  · exact .fails _ (by decide)
  · refine commitValue_effect rfl fun hs => ?_
    obtain ⟨hlen, hdig, _⟩ := mulChain_reg s hs ra rb
    exact ⟨hlen, hdig⟩

/-! ## Every command -/

/-- Every command, whatever its operands, does one of the three things (R17, R26, R33). -/
theorem exec_effect (i : Instr) (s : State) : CommandEffect i s (exec i s) := by
  cases i with
  | dget r q p => exact execDget_effect r q p s
  | dset r q p v => exact execDset_effect r q p v s
  | gcnt q => exact .reads _ rfl
  | ldg r q g => exact execLdg_effect r q g s
  | rdg r q g => exact execRdg_effect r q g s
  | clr r => exact .writes r _ rfl fun _ => zero_wf s.cfg
  | mov rd ra => exact .writes rd _ rfl fun ⟨_, _, hregs⟩ => hregs ra
  | iget r x => exact execIget_effect r x s
  | iset r x v => exact execIset_effect r x v s
  | sget r => exact .reads _ rfl
  | sset r sgn => exact .writes r _ rfl fun ⟨_, _, hregs⟩ => withSign_wf s.cfg _ (hregs r) sgn
  | dcnt q => exact .reads _ rfl
  | add rd ra rb => exact execAdd_effect rd ra rb s
  | sub rd ra rb => exact execSub_effect rd ra rb s
  | mul rd ra rb => exact execMul_effect rd ra rb s
  | div rd ra rb => exact .fails _ (by decide)
  | cmp ra rb => exact .reads _ rfl

/-- Settles O15: what `exec` can do is said once by `exec_effect`, and none of it leaves the well-formed states. -/
theorem everyCommandKeepsTheDigitInvariants : Obligations.EveryCommandKeepsTheDigitInvariants := by
  unfold Obligations.EveryCommandKeepsTheDigitInvariants
  intro i s hs
  exact (exec_effect i s).next_wf hs

end Sys2Proof.Machine
end

section
/-! The reset value of the registers, and the port before the first reset (10_state.md R31, R32). -/

namespace Sys2Proof.Machine

@[simp] theorem zero_sign (c : Config) : (DReg.zero c).sign = false := rfl

theorem zero_seq (c : Config) (q : Seq) : (DReg.zero c).seq q = List.replicate (c.gcnt q) 0#64 := by
  cases q with
  | I => rfl
  | F => rfl

theorem resetFor_reg_allZero (c : Config) (r : RegNum) : ((State.resetFor c).reg r).sign = false ∧
    ∀ q, ((State.resetFor c).reg r).seq q = List.replicate (c.gcnt q) 0#64 := by
  rw [resetFor_reg]
  exact ⟨zero_sign c, zero_seq c⟩

/-- Settles O8: the reset state of a configuration holds the default-constructed value in every register, and
`State.reset` is that of CFG-A. -/
theorem resetStateIsAllZero : Obligations.ResetStateIsAllZero := by
  unfold Obligations.ResetStateIsAllZero
  exact ⟨resetFor_reg_allZero, resetFor_reg_allZero Config.cfgA⟩

/-- Settles O11, by the two forms of a command at the port. -/
theorem commandBeforeResetIsRefused : Obligations.CommandBeforeResetIsRefused := by
  unfold Obligations.CommandBeforeResetIsRefused
  rintro s cmd wdata rest hr (hcmd | habandoned)
  · exact step_command_before_reset s cmd wdata rest hcmd hr
  · exact step_abandoned_before_reset s cmd wdata rest habandoned hr

end Sys2Proof.Machine
end

section
/-! The digit-group store: the address decoder (20_memory.md R43), and one digit write seen through group and digit
reads (R45, R54). -/

namespace Sys2Proof.Machine

/-! ## The address decoder -/

/-- Every admitted group size is a power of two (00_scope.md R4). -/
theorem two_pow_log2_DPG (c : Config) : 2 ^ Nat.log2 c.DPG = c.DPG := by
  have hpow (W : WordWidth) : 2 ^ Nat.log2 (W.bits / 4) = W.bits / 4 := by cases W <;> decide
  exact hpow c.W

/-- Settles O28: once `DPG` is written as a power of two, a quotient is a shift and a remainder the low bits. -/
theorem addressDecodeIsShiftAndMask : Obligations.AddressDecodeIsShiftAndMask := by
  unfold Obligations.AddressDecodeIsShiftAndMask
  intro c p
  have hpow := two_pow_log2_DPG c
  refine ⟨rfl, rfl, ?_, ?_, hpow⟩
  · rw [Nat.shiftRight_eq_div_pow, hpow]; rfl
  · rw [Nat.and_two_pow_sub_one_eq_mod, hpow]; rfl

/-! ## A digit write in a well-formed state, through each way of reading -/

@[simp] theorem digitWrite_sign (s : State) (r r' : RegNum) (q : Seq) (p v : Nat) :
    ((digitWrite s r q p v).reg r').sign = (s.reg r').sign := by
  rw [digitWrite_reg]
  split
  · next h => rw [h, setDigit_sign]
  · rfl

/-- Every group index of a well-formed register is an index of its list. -/
theorem lt_length_seq_of_wf {s : State} (hs : s.wf) (r : RegNum) {q : Seq} {g : Nat} (hg : g < s.cfg.gcnt q) :
    g < ((s.reg r).seq q).length := by
  obtain ⟨_, _, hregs⟩ := hs
  rwa [sized_of_wf s.cfg _ (hregs r) q]

section
variable {s : State} {q : Seq} {p v : Nat} (hs : s.wf) (hp : p < s.cfg.cnt q)
include hs hp

/-- The group that is addressed is the old one with the digit inserted (R45). -/
theorem groupRead_digitWrite_same (r : RegNum) :
    groupRead (digitWrite s r q p v) r q (groupOf s.cfg p)
      = insertField (groupRead s r q (groupOf s.cfg p)) (offsetOf s.cfg p) v := by
  have hg := lt_length_seq_of_wf hs r (groupOf_lt_gcnt s.cfg q p hp)
  rw [groupRead, digitWrite_reg, if_pos rfl, DReg.setDigit, group_setGroup _ _ _ _ _ _ hg, if_pos ⟨rfl, rfl⟩]
  rfl

/-- One field of one group of one register changes (R45). -/
theorem field_digitWrite (hv : v < 16) (r r' : RegNum) (q' : Seq) {g o : Nat} (ho : o < 16) :
    extractField (groupRead (digitWrite s r q p v) r' q' g) o
      = if r' = r ∧ q' = q ∧ g = groupOf s.cfg p ∧ o = offsetOf s.cfg p then v
        else extractField (groupRead s r' q' g) o := by
  have hg := lt_length_seq_of_wf hs r (groupOf_lt_gcnt s.cfg q p hp)
  rw [groupRead, digitWrite_reg]
  by_cases hr : r' = r
  · subst hr
    simp only [if_true, true_and]
    exact field_setDigit s.cfg _ q q' p v g o hg ho hv
  · simp only [hr, if_false, false_and, groupRead]

theorem field_digitWrite_same (hv : v < 16) (r : RegNum) :
    extractField (groupRead (digitWrite s r q p v) r q (groupOf s.cfg p)) (offsetOf s.cfg p) = v := by
  rw [field_digitWrite hs hp hv r r q (offsetOf_lt_16 s.cfg p), if_pos ⟨rfl, rfl, rfl, rfl⟩]

end

/-- A digit read is the field of a group read (R44, R54). -/
theorem digitRead_eq_field (s : State) (r : RegNum) (q : Seq) (p : Nat) :
    digitRead s r q p = extractField (groupRead s r q (groupOf s.cfg p)) (offsetOf s.cfg p) := rfl

/-- Settles O29: the group addressed holds the inserted field, and `field_digitWrite` says which fields stay. -/
theorem digitWriteChangesOneField : Obligations.DigitWriteChangesOneField := by
  unfold Obligations.DigitWriteChangesOneField
  intro s r q p v hs hp hv
  have hv16 : v < 16 := by omega
  refine ⟨groupRead_digitWrite_same hs hp r, field_digitWrite_same hs hp hv16 r, fun r' q' g o ho hne => ?_,
    fun r' => digitWrite_sign s r r' q p v, ⟨rfl, rfl, rfl, rfl⟩, rfl⟩
  rw [field_digitWrite hs hp hv16 r r' q' ho]
  exact if_neg hne

/-! ## A group write, through a group read and a digit read -/

theorem groupRead_groupWrite_same {s : State} (hs : s.wf) (r : RegNum) {q : Seq} {g : Nat} (hg : g < s.cfg.gcnt q)
    (w : Word) : groupRead (groupWrite s r q g w) r q g = w := by
  rw [groupRead, groupWrite_reg, if_pos rfl, group_setGroup _ _ _ _ _ _ (lt_length_seq_of_wf hs r hg),
    if_pos ⟨rfl, rfl⟩]

theorem digitRead_groupWrite_same {s : State} (hs : s.wf) (r : RegNum) {q : Seq} {g o : Nat} (hg : g < s.cfg.gcnt q)
    (ho : o < s.cfg.DPG) (w : Word) :
    digitRead (groupWrite s r q g w) r q (g * s.cfg.DPG + o) = extractField w o := by
  have hcfg : (groupWrite s r q g w).cfg = s.cfg := rfl
  rw [digitRead_eq_field, hcfg, groupOf_mul_add s.cfg g o ho, offsetOf_mul_add s.cfg g o ho,
    groupRead_groupWrite_same hs r hg]

/-- Settles O30: a digit written is the field a group read returns, and a field of a group written is the digit read
at its position. -/
theorem groupAndDigitAccessSeeTheSameBits : Obligations.GroupAndDigitAccessSeeTheSameBits := by
  unfold Obligations.GroupAndDigitAccessSeeTheSameBits
  refine ⟨fun s r q p v hs hp hv => ?_, fun s r q g o w hs hg ho _ => digitRead_groupWrite_same hs r hg ho w⟩
  exact field_digitWrite_same hs hp (by omega) r

end Sys2Proof.Machine
end

section
/-! Reads have no side effect, and plain writes are idempotent (20_memory.md R58). -/

namespace Sys2Proof.Machine

/-! ## Reads -/

/-- In two states with the same registers a read gives the same response, and only responds. -/
theorem exec_read_responds {i : Instr} (hi : isRead i = true) {s u : State} (hsame : sameRegs s u) :
    ∃ st data, exec i s = respond st data s ∧ exec i u = respond st data u := by
  obtain ⟨hcfg, hregs⟩ := hsame
  have hreg (r : RegNum) : u.reg r = s.reg r := by rw [State.reg, hregs]; rfl
  cases i with
  | dget r q p =>
    have hread : digitRead u r q p = digitRead s r q p := by rw [digitRead, hreg, hcfg]; rfl
    simp only [exec, execDget, hcfg, hread]
    split
    · exact ⟨_, _, rfl, rfl⟩
    · split
      · exact ⟨_, _, rfl, rfl⟩
      · exact ⟨_, _, rfl, rfl⟩
  | gcnt q =>
    simp only [exec, execGcnt, hcfg]
    exact ⟨_, _, rfl, rfl⟩
  | rdg r q g =>
    have hread : groupRead u r q g = groupRead s r q g := by rw [groupRead, hreg]; rfl
    simp only [exec, execRdg, hcfg, hread]
    split
    · exact ⟨_, _, rfl, rfl⟩
    · exact ⟨_, _, rfl, rfl⟩
  | iget r x =>
    have hread (q : Seq) (p : Nat) : digitRead u r q p = digitRead s r q p := by rw [digitRead, hreg, hcfg]; rfl
    simp only [exec, execIget, hcfg, hread]
    split
    · exact ⟨_, _, rfl, rfl⟩
    · exact ⟨_, _, rfl, rfl⟩
  | sget r =>
    have hsign : signRead u r = signRead s r := by rw [signRead, hreg]; rfl
    simp only [exec, execSget, hsign]
    exact ⟨_, _, rfl, rfl⟩
  | dcnt q =>
    simp only [exec, execDcnt, hcfg]
    exact ⟨_, _, rfl, rfl⟩
  | cmp ra rb =>
    have hcomb (r : RegNum) : combRead u r = combRead s r := by funext k; rw [combRead, hreg, hcfg]; rfl
    have hneg (r : RegNum) : effectivelyNegative u r = effectivelyNegative s r := by
      rw [effectivelyNegative, signRead, isZero, hreg, hcfg]; rfl
    simp only [exec, execCmp, hcfg, hcomb, hneg]
    exact ⟨_, _, rfl, rfl⟩
  | _ => cases hi

/-! ## A write repeated -/

/-- The last of two digits written to one field stays. -/
theorem insertField_insertField (w : Word) {o v v' : Nat} (ho : o < 16) (hv : v < 16) (hv' : v' < 16) :
    insertField (insertField w o v) o v' = insertField w o v' := by
  apply word_eq_of_extractField
  intro o' ho'
  rw [extractField_insertField _ o o' v' ho ho' hv', extractField_insertField w o o' v' ho ho' hv',
    extractField_insertField w o o' v ho ho' hv]
  split
  · rfl
  · rfl

@[simp] theorem setGroup_setGroup (d : DReg) (q : Seq) (g : Nat) (w w' : Word) :
    (d.setGroup q g w).setGroup q g w' = d.setGroup q g w' := by
  cases q with
  | I => simp [DReg.setGroup, DReg.setSeq]
  | F => simp [DReg.setGroup, DReg.setSeq]

/-- A group that a register does not have is not written (log 9). -/
theorem setGroup_of_length_le (d : DReg) (q : Seq) (g : Nat) (w : Word) (hg : (d.seq q).length ≤ g) :
    d.setGroup q g w = d := by
  rw [DReg.setGroup, List.set_eq_of_length_le hg]
  cases q with
  | I => rfl
  | F => rfl

theorem setDigit_setDigit (c : Config) (d : DReg) (q : Seq) (p : Nat) {v v' : Nat} (hv : v < 16) (hv' : v' < 16) :
    (d.setDigit c q p v).setDigit c q p v' = d.setDigit c q p v' := by
  unfold DReg.setDigit
  by_cases hg : groupOf c p < (d.seq q).length
  · rw [setGroup_setGroup, group_setGroup d q q _ _ _ hg, if_pos ⟨rfl, rfl⟩,
      insertField_insertField _ (offsetOf_lt_16 c p) hv hv']
  · have hle := Nat.le_of_not_lt hg
    rw [setGroup_of_length_le d q _ _ hle]

@[simp] theorem setReg_setReg (s : State) (r : RegNum) (d d' : DReg) :
    (s.setReg r d).setReg r d' = s.setReg r d' := by
  unfold State.setReg
  simp

theorem digitWrite_digitWrite (s : State) (r : RegNum) (q : Seq) (p : Nat) {v v' : Nat} (hv : v < 16) (hv' : v' < 16) :
    digitWrite (digitWrite s r q p v) r q p v' = digitWrite s r q p v' := by
  rw [digitWrite, digitWrite_reg, if_pos rfl, digitWrite, setReg_setReg, setReg_cfg,
    setDigit_setDigit s.cfg _ q p hv hv']
  rfl

@[simp] theorem groupWrite_groupWrite (s : State) (r : RegNum) (q : Seq) (g : Nat) (w w' : Word) :
    groupWrite (groupWrite s r q g w) r q g w' = groupWrite s r q g w' := by
  rw [groupWrite, groupWrite_reg, if_pos rfl, groupWrite, setReg_setReg, setGroup_setGroup]
  rfl

@[simp] theorem signWrite_signWrite (s : State) (r : RegNum) (b b' : Bool) :
    signWrite (signWrite s r b) r b' = signWrite s r b' := by
  rw [signWrite, signWrite_reg, if_pos rfl, signWrite, setReg_setReg]
  rfl

/-! ## Commands whose repetition changes nothing -/

/-- Issuing the command twice in a row leaves what issuing it once leaves, from this state (R58). -/
def RepeatsFrom (i : Instr) (s : State) : Prop := ∀ t, exec i s = .next t → exec i t = .next t

/-- No command reads the response port (10_state.md R29). -/
theorem exec_withRsp (i : Instr) (s : State) (x : Option Response) : exec i { s with rsp := x } = exec i s := by
  cases i <;> rfl

/-- A command that fails fails again. -/
theorem repeatsFrom_of_raise {i : Instr} {s : State} {st : Status} (h : exec i s = raise st s) : RepeatsFrom i s := by
  intro t ht
  rw [h, raise_eq] at ht
  cases ht
  rw [exec_withRsp, h, raise_eq]

/-- A command that writes, and that writes nothing new in the state it leaves. -/
theorem repeatsFrom_of_respondOk {i : Instr} {s w : State} (h : exec i s = respondOk w) (hw : exec i w = respondOk w) :
    RepeatsFrom i s := by
  intro t ht
  rw [h, respondOk_eq] at ht
  cases ht
  rw [exec_withRsp, hw, respondOk_eq]

theorem dset_repeats (r : RegNum) (q : Seq) (p v : Nat) (s : State) : RepeatsFrom (.dset r q p v) s := by
  cases he : digitWriteError s.cfg q p v with
  | some e => exact repeatsFrom_of_raise (st := e) (by simp only [exec, execDset, he])
  | none =>
    obtain ⟨_, hv⟩ := (digitWriteError_eq_none s.cfg q p v).mp he
    have hwrite (u : State) (hu : u.cfg = s.cfg) : exec (.dset r q p v) u = respondOk (digitWrite u r q p v) := by
      simp only [exec, execDset, hu, he]
    refine repeatsFrom_of_respondOk (hwrite s rfl) ?_
    rw [hwrite (digitWrite s r q p v) rfl, digitWrite_digitWrite s r q p (by omega) (by omega)]

theorem iset_repeats (r : RegNum) (x : Int) (v : Nat) (s : State) : RepeatsFrom (.iset r x v) s := by
  cases hpos : signedPosition s.cfg x with
  | none => exact repeatsFrom_of_raise (st := .indexOutOfRange) (by simp only [exec, execIset, hpos])
  | some qp =>
    obtain ⟨q, p⟩ := qp
    by_cases hv : 9 < v
    · exact repeatsFrom_of_raise (st := .digitOutOfRange) (by simp only [exec, execIset, hpos, hv, if_true])
    · have hwrite (u : State) (hu : u.cfg = s.cfg) : exec (.iset r x v) u = respondOk (digitWrite u r q p v) := by
        simp only [exec, execIset, hu, hpos, hv, if_false]
      refine repeatsFrom_of_respondOk (hwrite s rfl) ?_
      rw [hwrite (digitWrite s r q p v) rfl, digitWrite_digitWrite s r q p (by omega) (by omega)]

theorem ldg_repeats (r : RegNum) (q : Seq) (g : Nat) (s : State) : RepeatsFrom (.ldg r q g) s := by
  cases he : groupWriteError s.cfg q g (writeData s) with
  | some e => exact repeatsFrom_of_raise (st := e) (by simp only [exec, execLdg, he])
  | none =>
    have hwrite (u : State) (hcfg : u.cfg = s.cfg) (hdata : writeData u = writeData s) :
        exec (.ldg r q g) u = respondOk (groupWrite u r q g (writeData s)) := by
      simp only [exec, execLdg, hcfg, hdata, he]
    refine repeatsFrom_of_respondOk (hwrite s rfl rfl) ?_
    rw [hwrite (groupWrite s r q g (writeData s)) rfl rfl, groupWrite_groupWrite]

theorem clr_repeats (r : RegNum) (s : State) : RepeatsFrom (.clr r) s := by
  refine repeatsFrom_of_respondOk (w := s.setReg r (DReg.zero s.cfg)) rfl ?_
  rw [exec, execClr, setReg_cfg, setReg_setReg]

/-- The source of MOV still holds what was copied, also where it is the destination (41_decimal_access.md R121). -/
theorem mov_repeats (rd ra : RegNum) (s : State) : RepeatsFrom (.mov rd ra) s := by
  refine repeatsFrom_of_respondOk (w := s.setReg rd (s.reg ra)) rfl ?_
  have hsource : (s.setReg rd (s.reg ra)).reg ra = s.reg ra := by rw [reg_setReg, ite_self]
  rw [exec, execMov, hsource, setReg_setReg]

theorem sset_repeats (r : RegNum) (sgn : Bool) (s : State) : RepeatsFrom (.sset r sgn) s := by
  refine repeatsFrom_of_respondOk (w := signWrite s r sgn) rfl ?_
  rw [exec, execSset, signWrite_signWrite]

theorem idempotentWrite_repeats {i : Instr} (hi : isIdempotentWrite i = true) (s : State) : RepeatsFrom i s := by
  cases i with
  | dset r q p v => exact dset_repeats r q p v s
  | ldg r q g => exact ldg_repeats r q g s
  | clr r => exact clr_repeats r s
  | mov rd ra => exact mov_repeats rd ra s
  | iset r x v => exact iset_repeats r x v s
  | sset r sgn => exact sset_repeats r sgn s
  | _ => cases hi

/-! ## In-place arithmetic, on one pair of operands -/

/-- A state of CFG-A whose `D0` has the integer groups `g0` and `g1` and no fractional digit, and whose `D1 = 003.00`,
after a response or none. -/
def inPlaceState (g0 g1 : Word) (x : Option Response) : State :=
  let d0 : DReg := { ig := [g0, g1], fg := [0x00#64], sign := false }
  let d1 : DReg := { ig := [0x03#64, 0x00#64], fg := [0x00#64], sign := false }
  { (State.reset.setReg 0 d0).setReg 1 d1 with rsp := x }

/-- `12 + 3 = 15` and `15 + 3 = 18`. -/
theorem add_inPlace_not_idempotent :
    ∃ s t u : State, s.wf ∧ runsOk (.add 0 0 1) s t ∧ runsOk (.add 0 0 1) t u ∧ u.reg 0 ≠ t.reg 0 :=
  ⟨inPlaceState 0x12 0x00 none, inPlaceState 0x15 0x00 (some ⟨.ok, 0⟩), inPlaceState 0x18 0x00 (some ⟨.ok, 0⟩),
    by decide, ⟨rfl, rfl⟩, ⟨rfl, rfl⟩, by decide⟩

/-- `12 - 3 = 9` and `9 - 3 = 6`. -/
theorem sub_inPlace_not_idempotent :
    ∃ s t u : State, s.wf ∧ runsOk (.sub 0 0 1) s t ∧ runsOk (.sub 0 0 1) t u ∧ u.reg 0 ≠ t.reg 0 :=
  ⟨inPlaceState 0x12 0x00 none, inPlaceState 0x09 0x00 (some ⟨.ok, 0⟩), inPlaceState 0x06 0x00 (some ⟨.ok, 0⟩),
    by decide, ⟨rfl, rfl⟩, ⟨rfl, rfl⟩, by decide⟩

/-- `12 * 3 = 36` and `36 * 3 = 108`. -/
theorem mul_inPlace_not_idempotent :
    ∃ s t u : State, s.wf ∧ runsOk (.mul 0 0 1) s t ∧ runsOk (.mul 0 0 1) t u ∧ u.reg 0 ≠ t.reg 0 :=
  ⟨inPlaceState 0x12 0x00 none, inPlaceState 0x36 0x00 (some ⟨.ok, 0⟩), inPlaceState 0x08 0x01 (some ⟨.ok, 0⟩),
    by decide, ⟨rfl, rfl⟩, ⟨rfl, rfl⟩, by decide⟩

/-- Settles O25: reads respond alike wherever the registers are the same, each plain write repeats, and one pair of
operands shows that ADD, SUB and MUL in place do not. -/
theorem readsAreFreeAndPlainWritesIdempotent : Obligations.ReadsAreFreeAndPlainWritesIdempotent := by
  unfold Obligations.ReadsAreFreeAndPlainWritesIdempotent
  refine ⟨fun i s t hi ht => ?_, fun i s t hi ht => idempotentWrite_repeats hi s t ht,
    add_inPlace_not_idempotent, sub_inPlace_not_idempotent, mul_inPlace_not_idempotent⟩
  have hread (u : State) (hcfg : u.cfg = s.cfg) (hregs : u.regs = s.regs) :
      t = { s with rsp := t.rsp } ∧ exec i u = .next { u with rsp := t.rsp } := by
    obtain ⟨st, data, hs, hu⟩ := exec_read_responds hi ⟨hcfg, hregs⟩
    rw [ht, respond_eq] at hs
    cases hs
    exact ⟨rfl, hu⟩
  exact ⟨(hread s rfl rfl).1, fun u hcfg hregs => (hread u hcfg hregs).2⟩

end Sys2Proof.Machine
end

section
/-! The decoder against the opcode map, illegal command words, and the response of every command (30_encoding.md R67,
R69, R77, R78, R94). -/

namespace Sys2Proof

/-! ## A row and the words that select it -/

theorem selects_iff (row : OpRow) (c : CmdWord) : row.selects c = true ↔ c &&& row.mask = row.pattern := beq_iff_eq

/-- Bits 31:26 of a command word (R69). -/
def opcodeOf (c : CmdWord) : BitVec 6 := c.extractLsb' 26 6

/-- Every row of the map fixes all six bits of the opcode (R77). -/
theorem opcodeOf_mask {row : OpRow} (hrow : row ∈ opcodeMap) : opcodeOf row.mask = BitVec.allOnes 6 := by
  revert row
  decide

/-- A word that selects a row has the row's opcode (R69). -/
theorem opcodeOf_of_selects {row : OpRow} (hrow : row ∈ opcodeMap) {c : CmdWord} (h : row.selects c = true) :
    opcodeOf c = opcodeOf row.pattern := by
  rw [selects_iff] at h
  calc opcodeOf c = opcodeOf c &&& opcodeOf row.mask := by rw [opcodeOf_mask hrow, BitVec.and_allOnes]
    _ = opcodeOf (c &&& row.mask) := BitVec.extractLsb'_and.symm
    _ = opcodeOf row.pattern := by rw [h]

/-- No two rows have the same opcode (R69). -/
theorem row_eq_of_opcodeOf_eq {row row' : OpRow} (hrow : row ∈ opcodeMap) (hrow' : row' ∈ opcodeMap)
    (h : opcodeOf row'.pattern = opcodeOf row.pattern) : row' = row := by
  have hdistinct : ∀ row ∈ opcodeMap, ∀ row' ∈ opcodeMap, opcodeOf row'.pattern = opcodeOf row.pattern → row' = row := by
    decide
  exact hdistinct row hrow row' hrow' h

/-- The rows are disjoint (R77). -/
theorem selected_row_unique {row row' : OpRow} (hrow : row ∈ opcodeMap) (hrow' : row' ∈ opcodeMap) {c : CmdWord}
    (h : row.selects c = true) (h' : row'.selects c = true) : row' = row :=
  row_eq_of_opcodeOf_eq hrow hrow' ((opcodeOf_of_selects hrow' h').symm.trans (opcodeOf_of_selects hrow h))

/-- The opcodes that are in no row of the map (R78). -/
def IllegalOpcode (op : BitVec 6) : Prop := op ∈ [0x00#6, 0x06#6, 0x07#6, 0x0F#6] ∨ 0x15#6 ≤ op

theorem not_illegalOpcode_of_row {row : OpRow} (hrow : row ∈ opcodeMap) : ¬ IllegalOpcode (opcodeOf row.pattern) := by
  unfold IllegalOpcode
  revert row
  decide

/-! ## The words the decoder rejects -/

/-- One test of the decoder. -/
theorem ite_some_eq_none {α : Type} (p : Prop) [Decidable p] (a : α) (x : Option α) :
    (if p then some a else x) = none ↔ ¬ p ∧ x = none := by
  split <;> simp [*]

/-- The decoder tries every row of the map, so it rejects exactly the words that select none (R77, R78). -/
theorem decode_eq_none_iff (c : CmdWord) : decode c = none ↔ ∀ row ∈ opcodeMap, ¬ row.selects c = true := by
  simp only [decode, ite_some_eq_none, opcodeMap, List.forall_mem_cons, List.not_mem_nil, false_imp_iff, implies_true,
    and_true]

theorem decode_eq_none_of_illegalOpcode {c : CmdWord} (h : IllegalOpcode (opcodeOf c)) : decode c = none := by
  rw [decode_eq_none_iff]
  intro row hrow hsel
  rw [opcodeOf_of_selects hrow hsel] at h
  exact not_illegalOpcode_of_row hrow h

/-- The decoder is total: a word is rejected or selects one row (R78). -/
theorem decode_none_or_selects_one (c : CmdWord) :
    decode c = none ∨ ∃ row ∈ opcodeMap, row.selects c = true ∧ ∀ row' ∈ opcodeMap, row'.selects c = true → row' = row := by
  by_cases h : ∃ row ∈ opcodeMap, row.selects c = true
  · obtain ⟨row, hrow, hsel⟩ := h
    exact .inr ⟨row, hrow, hsel, fun row' hrow' hsel' => selected_row_unique hrow hrow' hsel hsel'⟩
  · push Not at h
    exact .inl ((decode_eq_none_iff c).mpr h)

/-- Settles O4, by evaluating the encoder and the decoder on the three commands. -/
theorem specEncodingExamples : Obligations.SpecEncodingExamples := by
  unfold Obligations.SpecEncodingExamples
  exact ⟨⟨rfl, by decide⟩, ⟨rfl, by decide⟩, rfl, by decide⟩

namespace Machine

/-! ## The port on an accepted word -/

theorem answerCommand_of_decode {s : State} {cmd : CmdWord} {i : Instr} (h : decode cmd = some i) (wdata : Word)
    (rest : List HostAction) : answerCommand s cmd wdata rest = exec i (acceptCommand s wdata rest) := by
  simp only [answerCommand, h]

theorem answerCommand_of_illegal {s : State} {cmd : CmdWord} (h : decode cmd = none) (wdata : Word)
    (rest : List HostAction) : answerCommand s cmd wdata rest = illegalCommand (acceptCommand s wdata rest) := by
  simp only [answerCommand, h]

theorem illegalCommand_answers {s : State} (hr : s.hasReset = true) {cmd : CmdWord} (hd : decode cmd = none)
    (wdata : Word) (rest : List HostAction) : ∃ t, answerCommand s cmd wdata rest = .next t ∧
      answered t .illegalCommand 0#64 ∧ sameRegs s t ∧ t.hasReset = true ∧ t.host = rest := by
  rw [answerCommand_of_illegal hd, illegalCommand_eq]
  exact ⟨_, rfl, rfl, ⟨rfl, rfl⟩, hr, rfl⟩

/-- Settles O7: a word is illegal when no row is selected (`decode_eq_none_iff`), the rows are told apart by the opcode
(`opcodeOf_of_selects`), and the port answers such a word with `illegalCommand`. -/
theorem illegalWordsAreAnsweredAndChangeNothing : Obligations.IllegalWordsAreAnsweredAndChangeNothing := by
  unfold Obligations.IllegalWordsAreAnsweredAndChangeNothing
  refine ⟨fun c => ?_, fun c h => decode_eq_none_of_illegalOpcode h,
    decode_eq_none_of_illegalOpcode (.inl (by decide)), decode_eq_none_of_illegalOpcode (.inr (by decide)),
    fun c => ?_, rfl, fun s cmd wdata rest hr hcmd hd => ?_⟩
  · simpa only [selects_iff] using decode_eq_none_iff c
  · simpa only [selects_iff] using decode_none_or_selects_one c
  · rw [step_command s cmd wdata rest hcmd hr]
    exact illegalCommand_answers hr hd wdata rest

/-! ## Every command responds -/

/-- A command whose rule gives no data writes a register (R90). -/
theorem hasNoData_eq_false_of_destOf {i : Instr} (hi : destOf i = none) : hasNoData i = false := by
  cases i with
  | dget | gcnt | rdg | iget | sget | dcnt | div | cmp => rfl
  | _ => cases hi

/-- Whatever a command can do, there is a response, with data 0 where the status is not Ok or no data is due (R67). -/
theorem CommandEffect.responds {i : Instr} {s : State} {x : Result} (h : CommandEffect i s x) :
    ∃ t resp, x = .next t ∧ t.rsp = some resp ∧ (resp.status ≠ .ok → resp.data = 0#64) ∧
      (resp.status = .ok → hasNoData i = true → resp.data = 0#64) := by
  cases h with
  | fails st _ => exact ⟨_, ⟨st, 0#64⟩, raise_eq st s, rfl, fun _ => rfl, fun _ _ => rfl⟩
  | reads data hi =>
    refine ⟨_, ⟨.ok, data⟩, respond_eq .ok data s, rfl, fun hne => absurd rfl hne, fun _ hnd => ?_⟩
    rw [hasNoData_eq_false_of_destOf hi] at hnd
    cases hnd
  | writes rd d _ _ => exact ⟨_, ⟨.ok, 0#64⟩, respondOk_eq _, rfl, fun _ => rfl, fun _ _ => rfl⟩

/-- Settles O22: `exec_effect` says what a command can do, and a word that is no command is answered at the port. -/
theorem everyCommandResponds : Obligations.EveryCommandResponds := by
  unfold Obligations.EveryCommandResponds
  refine ⟨fun i s => (exec_effect i s).responds, fun s cmd wdata rest hr hcmd => ?_⟩
  rw [step_command s cmd wdata rest hcmd hr]
  cases hd : decode cmd with
  | some i =>
    obtain ⟨t, resp, hexec, hrsp, hfail, _⟩ := (exec_effect i (acceptCommand s wdata rest)).responds
    exact ⟨t, resp, (answerCommand_of_decode hd wdata rest).trans hexec, hrsp, hfail⟩
  | none =>
    obtain ⟨t, hstep, hrsp, _⟩ := illegalCommand_answers hr hd wdata rest
    exact ⟨t, ⟨.illegalCommand, 0#64⟩, hstep, hrsp, fun _ => rfl⟩

end Machine
end Sys2Proof
end

section
/-! ADD and SUB against the values of their operands (42_add_sub.md R140 to R143). -/

namespace Sys2Proof.Machine

/-! ## The carry out of the adder (R142) -/

/-- The result digits are a remainder, so the carry out is the quotient of the sum by the place above them. -/
theorem addChain_carry_eq_div (as bs : List Nat) (hl : as.length = bs.length) :
    (addChain as bs 0).2 = (listValue as + listValue bs) / 10 ^ as.length := by
  have hvalue := addChain_value as bs 0 hl
  have hlt := listValue_lt _ (addChain_digits as bs 0)
  rw [addChain_length as bs 0 hl] at hlt
  rw [← Nat.add_zero (listValue as + listValue bs), ← hvalue, Nat.add_mul_div_left _ _ (by positivity),
    Nat.div_eq_of_lt hlt, Nat.zero_add]

theorem addChain_carry_reg (s : State) (ra rb : RegNum) :
    (addChain ((s.reg ra).digits s.cfg) ((s.reg rb).digits s.cfg) 0).2 = (mag s ra + mag s rb) / 10 ^ s.cfg.N := by
  rw [addChain_carry_eq_div _ _ (by simp), length_digits, mag_eq, mag_eq]

/-- Two magnitudes of `N` digits carry at most 1. -/
theorem mag_add_div_le_one {s : State} (hs : s.wf) (ra rb : RegNum) : (mag s ra + mag s rb) / 10 ^ s.cfg.N ≤ 1 := by
  obtain ⟨_, _, hregs⟩ := hs
  have ha : mag s ra < 10 ^ s.cfg.N := mag_lt s.cfg _ (hregs ra)
  have hb : mag s rb < 10 ^ s.cfg.N := mag_lt s.cfg _ (hregs rb)
  exact Nat.le_of_lt_succ (Nat.div_lt_of_lt_mul (by omega))

/-! ## A command that commits -/

/-- What a command leaves that answers Ok and commits a full buffer of digits with the left operand's sign (R140). -/
theorem runsOk_of_commitValue {i : Instr} {s : State} (hs : s.wf) {rd ra : RegNum} {ds : List Nat}
    (hexec : exec i s = respondOk (commitValue s rd ds (copiedSign s ra))) (hlen : ds.length = s.cfg.N)
    (hdig : ∀ v ∈ ds, v ≤ 9) :
    ∃ t, runsOk i s t ∧ mag t rd = listValue ds ∧ (t.reg rd).sign = (s.reg ra).sign ∧ onlyReg rd s t := by
  obtain ⟨_, hmag, _, hsign, honly⟩ := commitValue_spec s hs rd ds (copiedSign s ra) hlen hdig
  exact ⟨_, ⟨hexec.trans (respondOk_eq _), rfl⟩, hmag, hsign, honly⟩

/-! ## ADD -/

section
variable {s : State} {ra rb : RegNum} (rd : RegNum)

theorem exec_add_of_lt (h : mag s ra + mag s rb < 10 ^ s.cfg.N) :
    exec (.add rd ra rb) s = respondOk (commitValue s rd
      (addChain ((s.reg ra).digits s.cfg) ((s.reg rb).digits s.cfg) 0).1 (copiedSign s ra)) := by
  obtain ⟨hcarry, _⟩ := addChain_reg s ra rb
  simp only [exec, execAdd, hcarry.mpr h, ne_eq, not_true_eq_false, if_false]

theorem exec_add_of_le (h : 10 ^ s.cfg.N ≤ mag s ra + mag s rb) :
    exec (.add rd ra rb) s = raise .overflow s := by
  obtain ⟨hcarry, _⟩ := addChain_reg s ra rb
  have hne := mt hcarry.mp (Nat.not_lt.mpr h)
  simp only [exec, execAdd, ne_eq, hne, not_false_eq_true, if_true]

theorem add_leaves_sum (hs : s.wf) (h : mag s ra + mag s rb < 10 ^ s.cfg.N) :
    ∃ t, runsOk (.add rd ra rb) s t ∧ mag t rd = mag s ra + mag s rb ∧ (t.reg rd).sign = (s.reg ra).sign ∧
      onlyReg rd s t := by
  obtain ⟨hcarry, hsum⟩ := addChain_reg s ra rb
  rw [← hsum (hcarry.mpr h)]
  exact runsOk_of_commitValue hs (exec_add_of_lt rd h)
    ((addChain_length _ _ 0 (by simp)).trans (length_digits _ _)) (addChain_digits _ _ 0)

/-! ## SUB -/

theorem exec_sub_of_le (hs : s.wf) (h : mag s rb ≤ mag s ra) :
    exec (.sub rd ra rb) s = respondOk (commitValue s rd
      (subChain ((s.reg ra).digits s.cfg) ((s.reg rb).digits s.cfg) 0).1 (copiedSign s ra)) := by
  obtain ⟨hborrow, _⟩ := subChain_reg s hs ra rb
  simp only [exec, execSub, hborrow.mpr h, ne_eq, not_true_eq_false, if_false]

theorem exec_sub_of_lt (hs : s.wf) (h : mag s ra < mag s rb) :
    exec (.sub rd ra rb) s = raise .underflow s := by
  obtain ⟨hborrow, _⟩ := subChain_reg s hs ra rb
  have hne := mt hborrow.mp (Nat.not_le.mpr h)
  simp only [exec, execSub, ne_eq, hne, not_false_eq_true, if_true]

theorem sub_leaves_difference (hs : s.wf) (h : mag s rb ≤ mag s ra) :
    ∃ t, runsOk (.sub rd ra rb) s t ∧ mag t rd = mag s ra - mag s rb ∧ (t.reg rd).sign = (s.reg ra).sign ∧
      onlyReg rd s t := by
  obtain ⟨hborrow, hdiff⟩ := subChain_reg s hs ra rb
  rw [← hdiff (hborrow.mpr h)]
  exact runsOk_of_commitValue hs (exec_sub_of_le rd hs h)
    ((subChain_length _ _ 0 (by simp)).trans (length_digits _ _))
    (subChain_digits _ _ 0 (by decide) (reg_digits_le_nine s hs ra) (reg_digits_le_nine s hs rb))

end

/-- Settles O46: the carry out decides between the commit of the sum and Overflow, and it is the sum's quotient by
`10^N`. -/
theorem addLeavesTheSumOrOverflows : Obligations.AddLeavesTheSumOrOverflows := by
  unfold Obligations.AddLeavesTheSumOrOverflows
  intro s rd ra rb hs
  exact ⟨add_leaves_sum rd hs, fun h => (exec_add_of_le rd h).trans (raise_eq .overflow s),
    addChain_carry_reg s ra rb, mag_add_div_le_one hs ra rb⟩

/-- Settles O47: the borrow out decides between the commit of the difference and Underflow. -/
theorem subLeavesTheDifferenceOrUnderflows : Obligations.SubLeavesTheDifferenceOrUnderflows := by
  unfold Obligations.SubLeavesTheDifferenceOrUnderflows
  intro s rd ra rb hs
  exact ⟨sub_leaves_difference rd hs, fun h => (exec_sub_of_lt rd hs h).trans (raise_eq .underflow s)⟩

end Sys2Proof.Machine
end

section
/-! MUL against the sum `R` of its partial products and the exact product `E` (43_multiply.md R160 to R165). -/

namespace Sys2Proof.Machine

/-! ## What the partial products drop (R161, R162) -/

/-- A digit of the left operand at or above `FD` loses nothing to the scaling (R161). -/
theorem pow_FD_dvd_of_le {c : Config} {i : Nat} (hi : c.FD ≤ i) (a B : Nat) : 10 ^ c.FD ∣ a * 10 ^ i * B :=
  Dvd.dvd.mul_right (Dvd.dvd.mul_left (pow_dvd_pow 10 hi) a) B

/-- What the first `n` partial products drop, in units of the last place of the unscaled product. -/
def droppedSum (c : Config) (a : Nat → Nat) (B n : Nat) : Nat :=
  ∑ i ∈ Finset.range n, a i * 10 ^ i * B % 10 ^ c.FD

/-- The partial products and what they drop make up the whole product. -/
theorem partialSum_add_droppedSum (c : Config) (a : Nat → Nat) (B n : Nat) :
    10 ^ c.FD * partialSum c a B n + droppedSum c a B n = digitSum a n * B := by
  induction n with
  | zero => simp [partialSum, droppedSum, digitSum]
  | succ n ih =>
    have hdiv := Nat.div_add_mod (a n * 10 ^ n * B) (10 ^ c.FD)
    unfold droppedSum at ih ⊢
    rw [Finset.sum_range_succ, partialSum, partialValue, digitSum]
    linarith

/-- Each of the `FD` lowest digits drops less than `10^FD`, and no other drops anything. -/
theorem droppedSum_le (c : Config) (a : Nat → Nat) (B n : Nat) : droppedSum c a B n ≤ c.FD * (10 ^ c.FD - 1) := by
  have hterm (i : Nat) : a i * 10 ^ i * B % 10 ^ c.FD ≤ if i < c.FD then 10 ^ c.FD - 1 else 0 := by
    split
    next => exact Nat.le_pred_of_lt (Nat.mod_lt _ (by positivity))
    next hi => exact (Nat.mod_eq_zero_of_dvd (pow_FD_dvd_of_le (Nat.le_of_not_lt hi) _ _)).le
  calc droppedSum c a B n
      ≤ ∑ i ∈ Finset.range n, if i < c.FD then 10 ^ c.FD - 1 else 0 := Finset.sum_le_sum fun i _ => hterm i
    _ = ((Finset.range n).filter (· < c.FD)).card * (10 ^ c.FD - 1) := by
        rw [← Finset.sum_filter, Finset.sum_const, smul_eq_mul]
    _ ≤ c.FD * (10 ^ c.FD - 1) := by
        gcongr
        calc ((Finset.range n).filter (· < c.FD)).card
            ≤ (Finset.range c.FD).card := Finset.card_le_card fun i hi =>
              Finset.mem_range.mpr (Finset.mem_filter.mp hi).2
          _ = c.FD := Finset.card_range _

/-! ## `R` against `E` (R162) -/

/-- The exact product exceeds the sum of the partial products by the whole units they drop. -/
theorem mulExact_eq (s : State) (ra rb : RegNum) :
    mulExact s ra rb =
      mulSum s ra rb + droppedSum s.cfg (combRead s ra) (mag s rb) s.cfg.N / 10 ^ s.cfg.FD := by
  have hsum : 10 ^ s.cfg.FD * mulSum s ra rb + _ = mag s ra * mag s rb :=
    partialSum_add_droppedSum s.cfg (combRead s ra) (mag s rb) s.cfg.N
  rw [mulExact, ← hsum, Nat.mul_add_div (by positivity)]

theorem mulSum_le_mulExact (s : State) (ra rb : RegNum) : mulSum s ra rb ≤ mulExact s ra rb := by
  rw [mulExact_eq]
  exact Nat.le_add_right _ _

theorem mulExact_le_mulSum_add (s : State) (ra rb : RegNum) :
    mulExact s ra rb ≤ mulSum s ra rb + (s.cfg.FD - 1) := by
  rw [mulExact_eq]
  gcongr
  have hle := droppedSum_le s.cfg (combRead s ra) (mag s rb) s.cfg.N
  rcases Nat.eq_zero_or_pos s.cfg.FD with hFD | hFD
  · rw [hFD, Nat.zero_mul] at hle
    simp [Nat.le_zero.mp hle]
  · refine Nat.le_pred_of_lt (Nat.div_lt_of_lt_mul (lt_of_le_of_lt hle ?_))
    rw [Nat.mul_comm]
    exact Nat.mul_lt_mul_of_pos_right (Nat.sub_lt (by positivity) Nat.one_pos) hFD

/-- `E` does not depend on the order of the operands. -/
theorem mulExact_comm (s : State) (ra rb : RegNum) : mulExact s ra rb = mulExact s rb ra := by
  rw [mulExact, mulExact, Nat.mul_comm]

/-! ## The two outcomes of MUL (R160, R161) -/

section
variable {s : State} (hs : s.wf) {ra rb : RegNum} (rd : RegNum)
include hs

theorem exec_mul_of_lt (h : mulSum s ra rb < 10 ^ s.cfg.N) :
    exec (.mul rd ra rb) s = respondOk (commitValue s rd
      (mulChain s.cfg ((s.reg ra).digits s.cfg) ((s.reg rb).digits s.cfg)).1 (copiedSign s ra)) := by
  obtain ⟨_, _, _, hovf⟩ := mulChain_reg s hs ra rb
  exact if_neg (mt hovf.mp (Nat.not_le.mpr h))

theorem exec_mul_of_le (h : 10 ^ s.cfg.N ≤ mulSum s ra rb) : exec (.mul rd ra rb) s = raise .overflow s := by
  obtain ⟨_, _, _, hovf⟩ := mulChain_reg s hs ra rb
  exact if_pos (hovf.mpr h)

/-- Below the overflow threshold the multiplier's result digits are those of `R`. -/
theorem listValue_mulChain_of_lt (h : mulSum s ra rb < 10 ^ s.cfg.N) :
    listValue (mulChain s.cfg ((s.reg ra).digits s.cfg) ((s.reg rb).digits s.cfg)).1 = mulSum s ra rb := by
  obtain ⟨_, _, hval, hovf⟩ := mulChain_reg s hs ra rb
  exact hval (Bool.eq_false_iff.mpr (mt hovf.mp (Nat.not_le.mpr h)))

theorem mul_leaves_sum (h : mulSum s ra rb < 10 ^ s.cfg.N) :
    ∃ t, runsOk (.mul rd ra rb) s t ∧ mag t rd = mulSum s ra rb ∧ (t.reg rd).sign = (s.reg ra).sign ∧
      onlyReg rd s t := by
  obtain ⟨hlen, hdig, _⟩ := mulChain_reg s hs ra rb
  rw [← listValue_mulChain_of_lt hs h]
  exact runsOk_of_commitValue hs (exec_mul_of_lt hs rd h) hlen hdig

theorem mul_overflows_iff : failsWith (.mul rd ra rb) s .overflow ↔ 10 ^ s.cfg.N ≤ mulSum s ra rb := by
  refine ⟨fun hfails => ?_, fun h => (exec_mul_of_le hs rd h).trans (raise_eq .overflow s)⟩
  by_contra h
  obtain ⟨t, ⟨hexec, hok⟩, _⟩ := mul_leaves_sum hs rd (Nat.not_le.mp h)
  cases hfails.symm.trans hexec
  cases hok

end

/-- Settles O51: the overflow mark decides between the commit of `R` and Overflow, and a digit at or above `FD` brings
the factor `10^FD` itself. -/
theorem mulLeavesTheSumOfPartialProducts : Obligations.MulLeavesTheSumOfPartialProducts := by
  unfold Obligations.MulLeavesTheSumOfPartialProducts
  intro s rd ra rb hs
  exact ⟨mul_leaves_sum hs rd, (mul_overflows_iff hs rd).mpr, fun i hi => pow_FD_dvd_of_le hi _ _⟩

/-! ## Overflow against the real product (R163) -/

/-- The reset state of a configuration with operands in `D0` and `D1`. -/
def operandState (c : Config) (d0 d1 : DReg) : State := ((State.resetFor c).setReg 0 d0).setReg 1 d1

/-- `D0 = 1.12` and `D1 = 8.93` with `ID = 1`, `FD = 2` (R163). -/
def fitsOnlyTruncatedState : State := operandState ⟨.w8, 1, 2⟩ ⟨[0x01], [0x12], false⟩ ⟨[0x08], [0x93], false⟩

/-- If `R` reaches `10^N`, the product itself does not fit (R163). -/
theorem capacity_le_product_of_le_mulSum {s : State} {ra rb : RegNum} (h : 10 ^ s.cfg.N ≤ mulSum s ra rb) :
    10 ^ s.cfg.N * 10 ^ s.cfg.FD ≤ mag s ra * mag s rb :=
  (Nat.le_div_iff_mul_le (by positivity)).mp (h.trans (mulSum_le_mulExact s ra rb))

/-- `1.12 * 8.93` (R163): the partial products are 17, 89 and 893, and the exact product is 10.0016. -/
theorem mul_ok_on_product_above_capacity :
    ∃ s t : State, s.wf ∧ s.cfg.ID = 1 ∧ s.cfg.FD = 2 ∧ mag s 0 = 112 ∧ mag s 1 = 893 ∧ mulExact s 0 1 = 1000 ∧
      runsOk (.mul 2 0 1) s t ∧ mag t 2 = 999 := by
  have hs : fitsOnlyTruncatedState.wf := by decide
  have hsum : mulSum fitsOnlyTruncatedState 0 1 = 999 := by decide
  obtain ⟨t, hrun, hmag, _⟩ := mul_leaves_sum hs 2 (ra := 0) (rb := 1) (by decide)
  exact ⟨fitsOnlyTruncatedState, t, hs, rfl, rfl, by decide, by decide, by decide, hrun, hmag.trans hsum⟩

/-- Settles O53: `R` decides, `R ≤ E` gives the implication, and `E ≤ R + (FD - 1)` the band in which the converse
fails. -/
theorem mulOverflowIsDecidedByTheSum : Obligations.MulOverflowIsDecidedByTheSum := by
  unfold Obligations.MulOverflowIsDecidedByTheSum
  refine ⟨fun s rd ra rb hs => ⟨mul_overflows_iff hs rd, fun hfails =>
    capacity_le_product_of_le_mulSum ((mul_overflows_iff hs rd).mp hfails), fun hE hR => ?_⟩,
    mul_ok_on_product_above_capacity⟩
  obtain ⟨t, hrun, hmag, _⟩ := mul_leaves_sum hs rd hR
  have hband := mulExact_le_mulSum_add s ra rb
  exact ⟨⟨t, hrun, hmag⟩, by omega, by omega, by omega⟩

/-! ## Commutativity (R165) -/

/-- What MUL commits depends on the order of the operands only through `R` and the sign. -/
theorem mulChain_comm_of_mulSum_eq {s : State} (hs : s.wf) {ra rb : RegNum} (heq : mulSum s rb ra = mulSum s ra rb)
    (h : mulSum s ra rb < 10 ^ s.cfg.N) :
    (mulChain s.cfg ((s.reg rb).digits s.cfg) ((s.reg ra).digits s.cfg)).1 =
      (mulChain s.cfg ((s.reg ra).digits s.cfg) ((s.reg rb).digits s.cfg)).1 := by
  obtain ⟨hlen, hdig, _⟩ := mulChain_reg s hs ra rb
  obtain ⟨hlen', hdig', _⟩ := mulChain_reg s hs rb ra
  refine listValue_inj _ _ (hlen'.trans hlen.symm) hdig' hdig ?_
  rw [listValue_mulChain_of_lt hs h, listValue_mulChain_of_lt hs (heq ▸ h), heq]

/-- The groups a commit leaves do not depend on the sign it writes (R140). -/
theorem groupRead_commitValue (s : State) (rd : RegNum) (ds : List Nat) (b : Bool) (q : Seq) (g : Nat) :
    groupRead (commitValue s rd ds b) rd q g = ((s.reg rd).setCombs s.cfg 0 ds).group q g := by
  simp [groupRead, commitValue]

/-- When `R` is the same in both orders, so are the response and the groups, Overflow included. -/
theorem mul_comm_of_mulSum_eq {s : State} (hs : s.wf) (rd : RegNum) {ra rb : RegNum}
    (heq : mulSum s rb ra = mulSum s ra rb) :
    ∃ t u, exec (.mul rd ra rb) s = .next t ∧ exec (.mul rd rb ra) s = .next u ∧ u.rsp = t.rsp ∧
      sameGroups t rd u rd := by
  rcases Nat.lt_or_ge (mulSum s ra rb) (10 ^ s.cfg.N) with h | h
  · refine ⟨_, _, (exec_mul_of_lt hs rd h).trans (respondOk_eq _),
      (exec_mul_of_lt hs rd (heq ▸ h)).trans (respondOk_eq _), rfl, fun q g _ => ?_⟩
    rw [mulChain_comm_of_mulSum_eq hs heq h]
    exact (groupRead_commitValue s rd _ _ q g).trans (groupRead_commitValue s rd _ _ q g).symm
  · exact ⟨_, _, (exec_mul_of_le hs rd h).trans (raise_eq .overflow s),
      (exec_mul_of_le hs rd (heq ▸ h)).trans (raise_eq .overflow s), rfl, fun _ _ _ => rfl⟩

/-- `D0 = 000.15` and `D1 = 000.07` in CFG-A (R165). -/
def nonCommutingState : State := operandState .cfgA ⟨[0x00, 0x00], [0x15], false⟩ ⟨[0x00, 0x00], [0x07], false⟩

/-- `000.15 * 000.07` (R165): the left digits 5 and 1 give 0 and 0, in the other order the left digit 7 gives 1. -/
theorem mul_not_commutative :
    ∃ s t u : State, s.wf ∧ s.cfg.ID = 3 ∧ s.cfg.FD = 2 ∧ mag s 0 = 15 ∧ mag s 1 = 7 ∧ runsOk (.mul 2 0 1) s t ∧
      runsOk (.mul 2 1 0) s u ∧ mag t 2 = 0 ∧ mag u 2 = 1 := by
  have hs : nonCommutingState.wf := by decide
  have hsum : mulSum nonCommutingState 0 1 = 0 := by decide
  have hsum' : mulSum nonCommutingState 1 0 = 1 := by decide
  obtain ⟨t, ht, hmagt, _⟩ := mul_leaves_sum hs 2 (ra := 0) (rb := 1) (by decide)
  obtain ⟨u, hu, hmagu, _⟩ := mul_leaves_sum hs 2 (ra := 1) (rb := 0) (by decide)
  exact ⟨nonCommutingState, t, u, hs, rfl, rfl, by decide, by decide, ht, hu, hmagt.trans hsum, hmagu.trans hsum'⟩

/-- Settles O54: `E` is symmetric, so `R = E` in both orders makes `R` symmetric; `000.15 * 000.07` shows that it need
not be. -/
theorem mulCommutesWhenNothingIsLost : Obligations.MulCommutesWhenNothingIsLost := by
  unfold Obligations.MulCommutesWhenNothingIsLost
  refine ⟨fun s rd ra rb hs hab hba => mul_comm_of_mulSum_eq hs rd ?_, mul_not_commutative⟩
  rw [hba, hab, mulExact_comm]

end Sys2Proof.Machine
end

section
/-! CMP against the signed values of its operands (44_compare_divide.md R175, R176). -/

namespace Sys2Proof.Machine

/-! ## The value as a signed magnitude (R176) -/

/-- A magnitude with the sign "effectively negative" applied (R175). -/
def applySign (neg : Bool) (m : Nat) : ℤ := if neg then -(m : ℤ) else m

theorem effectivelyNegative_iff (s : State) (r : RegNum) :
    effectivelyNegative s r = true ↔ (s.reg r).sign = true ∧ mag s r ≠ 0 := by
  rw [effectivelyNegative, Bool.and_eq_true, Bool.not_eq_true', ← Bool.not_eq_true, isZero_iff]
  rfl

theorem mag_pos_of_effectivelyNegative {s : State} {r : RegNum} (h : effectivelyNegative s r = true) : 0 < mag s r :=
  Nat.pos_of_ne_zero ((effectivelyNegative_iff s r).mp h).2

/-- The sign flag and "effectively negative" differ only on a zero, which has no sign to lose. -/
theorem val_eq_applySign (s : State) (r : RegNum) :
    val s r = (applySign (effectivelyNegative s r) (mag s r) : ℚ) / 10 ^ s.cfg.FD := by
  by_cases hneg : effectivelyNegative s r = true
  · obtain ⟨hsign, _⟩ := (effectivelyNegative_iff s r).mp hneg
    simp [val, applySign, hneg, hsign]
  · rcases Nat.eq_zero_or_pos (mag s r) with hzero | hpos
    · simp [val, applySign, hzero]
    · have hsign : ¬ (s.reg r).sign = true := fun h => hneg ((effectivelyNegative_iff s r).mpr ⟨h, hpos.ne'⟩)
      simp [val, applySign, hneg, hsign]

/-- Both operands are scaled by the same `10^FD`, so the order of the values is that of the signed magnitudes. -/
theorem compare_val (s : State) (ra rb : RegNum) :
    compare (val s ra) (val s rb) = compare (applySign (effectivelyNegative s ra) (mag s ra))
      (applySign (effectivelyNegative s rb) (mag s rb)) := by
  have hscale : StrictMono fun z : ℤ => (z : ℚ) / 10 ^ s.cfg.FD := fun x y hxy =>
    div_lt_div_of_pos_right (Int.cast_lt.mpr hxy) (by positivity)
  rw [val_eq_applySign, val_eq_applySign, ← cmp_eq_compare, ← cmp_eq_compare]
  exact hscale.cmp_map_eq _ _

/-! ## The comparator's sign rule (R175) -/

/-- The sign rule turns the order of the magnitudes into the order of the signed magnitudes, provided that no zero
counts as negative. -/
theorem signedOrdering_compare {na nb : Bool} {m n : Nat} (hm : na = true → 0 < m) (hn : nb = true → 0 < n) :
    signedOrdering na nb (compare m n) = compare (applySign na m) (applySign nb n) := by
  have hcast : StrictMono fun k : Nat => (k : ℤ) := Nat.strictMono_cast
  have hneg : StrictAnti fun k : Nat => -(k : ℤ) := fun _ _ h => neg_lt_neg (hcast h)
  cases na <;> cases nb
  case false.false =>
    show compare m n = compare (m : ℤ) n
    rw [← cmp_eq_compare, ← cmp_eq_compare]
    exact (hcast.cmp_map_eq m n).symm
  case false.true =>
    have hpos := hn rfl
    exact (compare_gt_iff_gt.mpr (show -(n : ℤ) < m by omega)).symm
  case true.false =>
    have hpos := hm rfl
    exact (compare_lt_iff_lt.mpr (show -(m : ℤ) < n by omega)).symm
  case true.true =>
    show (compare m n).swap = compare (-(m : ℤ)) (-(n : ℤ))
    rw [← cmp_eq_compare, ← cmp_eq_compare, cmp_swap]
    exact (hneg.cmp_map_eq m n).symm

/-! ## The answer of CMP (R176) -/

/-- CMP reads the ordering code of the signed values (R176). -/
theorem cmp_reads_compare_val {s : State} (hs : s.wf) (ra rb : RegNum) :
    readsNat (.cmp ra rb) s (orderingCode (compare (val s ra) (val s rb))) := by
  have hm := mag_pos_of_effectivelyNegative (s := s) (r := ra)
  have hn := mag_pos_of_effectivelyNegative (s := s) (r := rb)
  rw [compare_val, ← signedOrdering_compare hm hn, ← magOrdering_reg s hs]
  exact respondNat_eq _ s

theorem orderingCode_le_two (o : Ordering) : orderingCode o ≤ 2 := by cases o <;> decide

theorem orderingCode_eq_zero_iff (o : Ordering) : orderingCode o = 0 ↔ o = .eq := by cases o <;> decide

theorem orderingCode_eq_one_iff (o : Ordering) : orderingCode o = 1 ↔ o = .lt := by cases o <;> decide

theorem orderingCode_eq_two_iff (o : Ordering) : orderingCode o = 2 ↔ o = .gt := by cases o <;> decide

/-- Settles O57: the answer is the ordering code of the two values, and each code stands for one ordering. -/
theorem cmpIsTheOrderOfTheValues : Obligations.CmpIsTheOrderOfTheValues := by
  unfold Obligations.CmpIsTheOrderOfTheValues
  intro s ra rb hs
  exact ⟨orderingCode (compare (val s ra) (val s rb)), cmp_reads_compare_val hs ra rb, orderingCode_le_two _,
    (orderingCode_eq_one_iff _).trans compare_lt_iff_lt, (orderingCode_eq_two_iff _).trans compare_gt_iff_gt,
    (orderingCode_eq_zero_iff _).trans compare_eq_iff_eq⟩

end Sys2Proof.Machine
end

section
/-! The exception mechanism: the status codes, which status a command answers, and what a response that is not Ok leaves
behind (60_exceptions.md R190 to R194). -/

namespace Sys2Proof.Machine

/-! ## What a failed command records (R192) -/

/-- Raising a status leaves a response with data 0 and nothing else (R192, R196). -/
theorem raise_records {st : Status} {s t : State} {resp : Response} (h : raise st s = .next t)
    (hrsp : t.rsp = some resp) : resp.data = 0#64 ∧ t = { s with rsp := some ⟨resp.status, 0#64⟩ } := by
  cases h
  cases hrsp
  exact ⟨rfl, rfl⟩

/-- Of the three things a command can do, only the one that writes nothing answers a status other than Ok. -/
theorem CommandEffect.failure_records {i : Instr} {s t : State} {x : Result} {resp : Response}
    (h : CommandEffect i s x) (hx : x = .next t) (hrsp : t.rsp = some resp) (hne : resp.status ≠ .ok) :
    resp.data = 0#64 ∧ t = { s with rsp := some ⟨resp.status, 0#64⟩ } := by
  cases h with
  | fails st _ => exact raise_records hx hrsp
  | reads | writes =>
    cases hx
    cases hrsp
    exact absurd rfl hne

/-- A command word answered in a next state was accepted by a block that had been reset (R32). -/
theorem hasReset_of_step_command {s t : State} {cmd : CmdWord} {wdata : Word} {rest : List HostAction}
    (hcmd : s.host = .command cmd wdata :: rest) (hstep : step s = .next t) : s.hasReset = true := by
  by_contra hr
  rw [step_command_before_reset s cmd wdata rest hcmd (Bool.eq_false_iff.mpr hr)] at hstep
  cases hstep

/-- Settles O21: `exec_effect` says what a command can do, and a word that is no command is raised at the port. -/
theorem failedCommandRecordsOnlyItsStatus : Obligations.FailedCommandRecordsOnlyItsStatus := by
  unfold Obligations.FailedCommandRecordsOnlyItsStatus
  refine ⟨fun i s t resp hexec => (exec_effect i s).failure_records hexec,
    fun s t cmd wdata rest resp hcmd hstep hrsp hne => ?_⟩
  rw [step_command s cmd wdata rest hcmd (hasReset_of_step_command hcmd hstep)] at hstep
  cases hd : decode cmd with
  | some i =>
    rw [answerCommand_of_decode hd] at hstep
    exact (exec_effect i (acceptCommand s wdata rest)).failure_records hstep hrsp hne
  | none =>
    rw [answerCommand_of_illegal hd] at hstep
    exact raise_records hstep hrsp

/-! ## The status of an answer -/

/-- The command goes on to a state whose response carries this status. -/
def AnswersStatus (st : Status) (x : Result) : Prop := ∃ t data, x = .next t ∧ t.rsp = some ⟨st, data⟩

theorem respond_answersStatus (st : Status) (data : Word) (s : State) : AnswersStatus st (respond st data s) :=
  ⟨_, data, respond_eq st data s, rfl⟩

theorem raise_answersStatus (st : Status) (s : State) : AnswersStatus st (raise st s) := respond_answersStatus st _ s

theorem respondOk_answersStatus (s : State) : AnswersStatus .ok (respondOk s) := respond_answersStatus .ok _ s

theorem respondNat_answersStatus (n : Nat) (s : State) : AnswersStatus .ok (respondNat n s) :=
  respond_answersStatus .ok _ s

/-! ## The verdicts of the operand checks, as the table words them (R191, R194) -/

theorem digitWriteError_getD (c : Config) (q : Seq) (p v : Nat) :
    (digitWriteError c q p v).getD .ok =
      if c.cnt q ≤ p then .indexOutOfRange else if 10 ≤ v then .digitOutOfRange else .ok := by
  simp only [digitWriteError, apply_ite (Option.getD · Status.ok), Option.getD_some, Option.getD_none]
  rfl

/-- The wires carry every field of a group, so a bad digit on them is one of the sampled write data (R75). -/
theorem hasBadDigit_writeData_iff (s : State) :
    hasBadDigit s.cfg (writeData s) = true ↔ ∃ o < s.cfg.DPG, 10 ≤ extractField s.wdata o := by
  rw [hasBadDigit_iff]
  refine exists_congr fun o => and_congr_right fun ho => ?_
  rw [extractField_writeData, if_pos ho]
  exact Nat.lt_iff_add_one_le

theorem hasNonzeroSpare_writeData_iff (s : State) (q : Seq) (g : Nat) :
    hasNonzeroSpare s.cfg q g (writeData s) = true ↔
      ∃ o < s.cfg.DPG, s.cfg.cnt q ≤ g * s.cfg.DPG + o ∧ extractField s.wdata o ≠ 0 := by
  rw [hasNonzeroSpare_iff]
  refine exists_congr fun o => and_congr_right fun ho => ?_
  rw [extractField_writeData, if_pos ho]

/-- The verdict on a group write takes the table's checks in the table's order (R103, R194). -/
theorem groupWriteError_getD (r : RegNum) (s : State) (q : Seq) (g : Nat) :
    (groupWriteError s.cfg q g (writeData s)).getD .ok = expectedStatus (.ldg r q g) s := by
  simp only [groupWriteError, hasBadDigit_writeData_iff, hasNonzeroSpare_writeData_iff, expectedStatus,
    apply_ite (Option.getD · Status.ok), Option.getD_some, Option.getD_none]

/-! ## Every command answers the table's status (R191, R194) -/

theorem execDget_answersStatus (r : RegNum) (q : Seq) (p : Nat) (s : State) :
    AnswersStatus (expectedStatus (.dget r q p) s) (execDget r q p s) := by
  rw [expectedStatus, execDget]
  cases q with
  | I =>
    by_cases hp : s.cfg.cnt .I ≤ p
    · rw [if_pos ⟨rfl, hp⟩, if_neg (Nat.not_lt.mpr hp), if_neg (by decide)]
      exact raise_answersStatus _ s
    · rw [if_neg fun ⟨_, hle⟩ => hp hle, if_pos (Nat.not_le.mp hp)]
      exact respondNat_answersStatus _ s
  | F =>
    rw [if_neg fun ⟨hq, _⟩ => nomatch hq]
    split
    · exact respondNat_answersStatus _ s
    · exact respondNat_answersStatus 0 s

theorem execDset_answersStatus (r : RegNum) (q : Seq) (p v : Nat) (s : State) :
    AnswersStatus (expectedStatus (.dset r q p v) s) (execDset r q p v s) := by
  rw [expectedStatus, ← digitWriteError_getD, execDset]
  cases digitWriteError s.cfg q p v with
  | some e => exact raise_answersStatus e s
  | none => exact respondOk_answersStatus _

theorem execLdg_answersStatus (r : RegNum) (q : Seq) (g : Nat) (s : State) :
    AnswersStatus (expectedStatus (.ldg r q g) s) (execLdg r q g s) := by
  rw [← groupWriteError_getD, execLdg]
  cases groupWriteError s.cfg q g (writeData s) with
  | some e => exact raise_answersStatus e s
  | none => exact respondOk_answersStatus _

theorem execRdg_answersStatus (r : RegNum) (q : Seq) (g : Nat) (s : State) :
    AnswersStatus (expectedStatus (.rdg r q g) s) (execRdg r q g s) := by
  rw [expectedStatus, execRdg]
  split
  · exact raise_answersStatus _ s
  · exact respond_answersStatus .ok _ s

theorem execIget_answersStatus (r : RegNum) (x : Int) (s : State) :
    AnswersStatus (expectedStatus (.iget r x) s) (execIget r x s) := by
  simp only [expectedStatus, ← signedPosition_eq_none, execIget]
  cases signedPosition s.cfg x with
  | none => exact raise_answersStatus _ s
  | some pos => exact respondNat_answersStatus _ s

theorem execIset_answersStatus (r : RegNum) (x : Int) (v : Nat) (s : State) :
    AnswersStatus (expectedStatus (.iset r x v) s) (execIset r x v s) := by
  simp only [expectedStatus, ← signedPosition_eq_none, execIset]
  cases signedPosition s.cfg x with
  | none => exact raise_answersStatus _ s
  | some pos =>
    rw [if_neg nofun]
    change AnswersStatus (if 9 < v then .digitOutOfRange else .ok) _
    split
    · exact raise_answersStatus _ s
    · exact respondOk_answersStatus _

theorem exec_add_answersStatus (rd ra rb : RegNum) (s : State) :
    AnswersStatus (expectedStatus (.add rd ra rb) s) (exec (.add rd ra rb) s) := by
  rw [expectedStatus]
  split
  next h => exact exec_add_of_le rd h ▸ raise_answersStatus _ s
  next h => exact exec_add_of_lt rd (Nat.not_le.mp h) ▸ respondOk_answersStatus _

theorem exec_sub_answersStatus (rd ra rb : RegNum) {s : State} (hs : s.wf) :
    AnswersStatus (expectedStatus (.sub rd ra rb) s) (exec (.sub rd ra rb) s) := by
  rw [expectedStatus]
  split
  next h => exact exec_sub_of_lt rd hs h ▸ raise_answersStatus _ s
  next h => exact exec_sub_of_le rd hs (Nat.not_lt.mp h) ▸ respondOk_answersStatus _

theorem exec_mul_answersStatus (rd ra rb : RegNum) {s : State} (hs : s.wf) :
    AnswersStatus (expectedStatus (.mul rd ra rb) s) (exec (.mul rd ra rb) s) := by
  rw [expectedStatus]
  split
  next h => exact exec_mul_of_le hs rd h ▸ raise_answersStatus _ s
  next h => exact exec_mul_of_lt hs rd (Nat.not_le.mp h) ▸ respondOk_answersStatus _

/-- Every command answers the status that the table and the order of checks give it (R191, R194). -/
theorem exec_answersStatus (i : Instr) {s : State} (hs : s.wf) : AnswersStatus (expectedStatus i s) (exec i s) := by
  cases i with
  | dget r q p => exact execDget_answersStatus r q p s
  | dset r q p v => exact execDset_answersStatus r q p v s
  | ldg r q g => exact execLdg_answersStatus r q g s
  | rdg r q g => exact execRdg_answersStatus r q g s
  | iget r x => exact execIget_answersStatus r x s
  | iset r x v => exact execIset_answersStatus r x v s
  | gcnt | sget | dcnt | cmp => exact respondNat_answersStatus _ s
  | clr | mov | sset => exact respondOk_answersStatus _
  | add rd ra rb => exact exec_add_answersStatus rd ra rb s
  | sub rd ra rb => exact exec_sub_answersStatus rd ra rb hs
  | mul rd ra rb => exact exec_mul_answersStatus rd ra rb hs
  | div => exact raise_answersStatus _ s

/-- No row of the table lists the reserved status, nor that of a word that selects no row (R191). -/
theorem expectedStatus_ne (i : Instr) (s : State) :
    expectedStatus i s ≠ .widthMismatch ∧ expectedStatus i s ≠ .illegalCommand := by
  cases i with
  | gcnt | clr | mov | sget | sset | dcnt | div | cmp => exact ⟨nofun, nofun⟩
  | dget | dset | ldg | rdg | iget | iset | add | sub | mul =>
    simp only [expectedStatus]
    split_ifs <;> decide

/-! ## The status of a word at the port -/

/-- Accepting a command touches no register (R66). -/
theorem acceptCommand_wf {s : State} (hs : s.wf) (wdata : Word) (rest : List HostAction) :
    (acceptCommand s wdata rest).wf := hs

/-- The table's status depends on the registers and the sampled write data alone (R191). -/
theorem expectedStatus_acceptCommand (i : Instr) (s : State) (wdata : Word) (rest : List HostAction) :
    expectedStatus i (acceptCommand s wdata rest) = expectedStatus i { s with wdata := wdata } := rfl

/-- Settles O20: `exec_answersStatus` for the command, in the state of the port that has sampled the write data. -/
theorem statusIsTheTablesStatus : Obligations.StatusIsTheTablesStatus := by
  unfold Obligations.StatusIsTheTablesStatus
  refine ⟨fun i s hs => ⟨exec_answersStatus i hs, expectedStatus_ne i s⟩,
    fun s cmd wdata rest i hs hcmd hd => ?_, fun s cmd wdata rest hr hcmd => ⟨fun i hd => ?_, fun hd => ?_⟩⟩
  · have ⟨_, hr, _⟩ := hs
    rw [step_command s cmd wdata rest hcmd hr, answerCommand_of_decode hd,
      ← expectedStatus_acceptCommand i s wdata rest]
    exact exec_answersStatus i (acceptCommand_wf hs wdata rest)
  · rw [step_command s cmd wdata rest hcmd hr, answerCommand_of_decode hd]
    exact ⟨_, rfl, ⟨rfl, rfl⟩, rfl, hr⟩
  · obtain ⟨t, hstep, hans, _⟩ := illegalCommand_answers hr hd wdata rest
    exact ⟨t, (step_command s cmd wdata rest hcmd hr).trans hstep, hans⟩

/-! ## The codes (R190) -/

/-- Settles O19, by evaluating the code of each status. -/
theorem statusCodesAreTheTables : Obligations.StatusCodesAreTheTables := by
  unfold Obligations.StatusCodesAreTheTables
  exact ⟨rfl, rfl, rfl, rfl, rfl, rfl, rfl, rfl⟩

end Sys2Proof.Machine
end

section
/-! Reset at the port: the registers it leaves (10_state.md R31, 70_reset_and_hazards.md R216), and the command it cuts
short (R217). -/

namespace Sys2Proof.Machine

/-- Whatever the registers held, reset leaves the reset value of the configuration in every one (R31, R216). -/
theorem applyReset_reg_allZero (s : State) (r : RegNum) : ((applyReset s).reg r).sign = false ∧
    ∀ q, ((applyReset s).reg r).seq q = List.replicate (s.cfg.gcnt q) 0#64 := by
  rw [applyReset_reg]
  exact ⟨zero_sign s.cfg, zero_seq s.cfg⟩

/-- Settles O10: after the first reset the port treats an abandoned command as a reset, whatever its word. -/
theorem abandonedCommandLeavesTheResetState : Obligations.AbandonedCommandLeavesTheResetState := by
  unfold Obligations.AbandonedCommandLeavesTheResetState
  intro s cmd wdata rest hr habandoned
  have hstep := step_abandoned s cmd wdata rest habandoned hr
  exact ⟨_, hstep, applyReset_rsp _, applyReset_cfg _, applyReset_hasReset _, applyReset_host _,
    applyReset_reg_allZero _⟩

end Sys2Proof.Machine
end

section
/-! The round trip between commands and command words (30_encoding.md R70 to R78, R92, R93). -/

namespace Sys2Proof

/-! ## The decoder as a table: each row with what it reads -/

/-- The rows of the opcode map in its order, each with the command it reads from a word (R77). -/
def rowReaders : List (OpRow × (CmdWord → Instr)) :=
  [(rowDGET, fun c => .dget (fieldRd c) (fieldQ c) (fieldIdx c)),
    (rowDSET, fun c => .dset (fieldRd c) (fieldQ c) (fieldIdx c) (fieldVal c)),
    (rowGCNT, fun c => .gcnt (fieldQ c)),
    (rowLDG, fun c => .ldg (fieldRd c) (fieldQ c) (fieldIdx c)),
    (rowRDG, fun c => .rdg (fieldRd c) (fieldQ c) (fieldIdx c)),
    (rowCLR, fun c => .clr (fieldRd c)),
    (rowMOV, fun c => .mov (fieldRd c) (fieldRa c)),
    (rowIGET, fun c => .iget (fieldRd c) (fieldSidx c)),
    (rowISET, fun c => .iset (fieldRd c) (fieldSidx c) (fieldVal c)),
    (rowSGET, fun c => .sget (fieldRd c)),
    (rowSSET, fun c => .sset (fieldRd c) (fieldSign c)),
    (rowDCNT, fun c => .dcnt (fieldQ c)),
    (rowADD, fun c => .add (fieldRd c) (fieldRa c) (fieldRb c)),
    (rowSUB, fun c => .sub (fieldRd c) (fieldRa c) (fieldRb c)),
    (rowMUL, fun c => .mul (fieldRd c) (fieldRa c) (fieldRb c)),
    (rowDIV, fun c => .div (fieldRd c) (fieldRa c) (fieldRb c)),
    (rowCMP, fun c => .cmp (fieldRa c) (fieldRb c))]

/-- Try rows in order; the first that the word selects reads it. -/
def readFirst (c : CmdWord) (es : List (OpRow × (CmdWord → Instr))) : Option Instr :=
  match es with
  | [] => none
  | e :: rest => if e.1.selects c then some (e.2 c) else readFirst c rest

theorem decode_eq_readFirst (c : CmdWord) : decode c = readFirst c rowReaders := rfl

theorem rowReaders_fst : rowReaders.map Prod.fst = opcodeMap := rfl

theorem mem_opcodeMap_of_mem_rowReaders {e : OpRow × (CmdWord → Instr)} (he : e ∈ rowReaders) : e.1 ∈ opcodeMap :=
  rowReaders_fst ▸ List.mem_map_of_mem he

theorem exists_of_readFirst_eq_some {c : CmdWord} {i : Instr} {es : List (OpRow × (CmdWord → Instr))}
    (h : readFirst c es = some i) : ∃ e ∈ es, e.1.selects c = true ∧ e.2 c = i := by
  induction es with
  | nil => cases h
  | cons e rest ih =>
    rw [readFirst] at h
    split at h
    next hsel => exact ⟨e, List.mem_cons_self, hsel, Option.some.inj h⟩
    next =>
      obtain ⟨e', he', hread⟩ := ih h
      exact ⟨e', List.mem_cons_of_mem e he', hread⟩

/-- No entry shares its row with another. -/
theorem entry_eq_of_row_eq {e e' : OpRow × (CmdWord → Instr)} (he : e ∈ rowReaders) (he' : e' ∈ rowReaders)
    (h : e'.1 = e.1) : e' = e := by
  have hnodup : (rowReaders.map Prod.fst).Nodup := by rw [rowReaders_fst]; decide
  exact List.inj_on_of_nodup_map hnodup he' he h

/-- A word decodes to what the row it selects reads from it (R77). -/
theorem decode_eq_some_iff {c : CmdWord} {i : Instr} :
    decode c = some i ↔ ∃ e ∈ rowReaders, e.1.selects c = true ∧ e.2 c = i := by
  refine ⟨fun h => exists_of_readFirst_eq_some (decode_eq_readFirst c ▸ h), ?_⟩
  rintro ⟨e, he, hsel, rfl⟩
  cases hd : decode c with
  | none => exact absurd hsel ((decode_eq_none_iff c).mp hd e.1 (mem_opcodeMap_of_mem_rowReaders he))
  | some j =>
    obtain ⟨e', he', hsel', rfl⟩ := exists_of_readFirst_eq_some (decode_eq_readFirst c ▸ hd)
    have hrow := selected_row_unique (mem_opcodeMap_of_mem_rowReaders he) (mem_opcodeMap_of_mem_rowReaders he') hsel hsel'
    rw [entry_eq_of_row_eq he he' hrow]

/-! ## From the command to the word and back -/

theorem fieldIdx_formatD {p : Nat} (hp : fitsIdx p) (op : BitVec 6) (r : RegNum) (q : Seq) (v : BitVec 4) :
    fieldIdx (formatD op r q v (BitVec.ofNat 16 p)) = p := by
  rw [fieldIdx, formatD_idx, BitVec.toNat_ofNat, Nat.mod_eq_of_lt hp]

theorem fieldVal_formatD {v : Nat} (hv : fitsVal v) (op : BitVec 6) (r : RegNum) (q : Seq) (x : BitVec 16) :
    fieldVal (formatD op r q (BitVec.ofNat 4 v) x) = v := by
  rw [fieldVal, formatD_val, BitVec.toNat_ofNat, Nat.mod_eq_of_lt hv]

theorem fieldSidx_formatD {x : Int} (hx : fitsSidx x) (op : BitVec 6) (r : RegNum) (q : Seq) (v : BitVec 4) :
    fieldSidx (formatD op r q v (BitVec.ofInt 16 x)) = x := by
  obtain ⟨hlo, hhi⟩ := hx
  rw [fieldSidx, formatD_idx]
  exact BitVec.toInt_ofInt_eq_self (by decide) hlo (Int.lt_of_le_sub_one hhi)

theorem fieldSign_formatD (b : Bool) (op : BitVec 6) (r : RegNum) (q : Seq) (x : BitVec 16) :
    fieldSign (formatD op r q (if b then 1#4 else 0#4) x) = b := by
  rw [formatD_sign]
  cases b <;> rfl

/-- The word of a well-formed command selects a row, and that row reads the command from it. -/
theorem exists_reader_of_encode {i : Instr} (h : i.WellFormed) :
    ∃ e ∈ rowReaders, e.1.selects (encode i) = true ∧ e.2 (encode i) = i := by
  cases i with
  | dget r q p =>
    refine ⟨_, List.getElem_mem (n := 0) (by decide), Laws.EncodeSelectsRow.dget r q p, ?_⟩
    simp [rowReaders, encode, formatD_reg, formatD_seq, fieldIdx_formatD h]
  | dset r q p v =>
    obtain ⟨hp, hv⟩ := h
    refine ⟨_, List.getElem_mem (n := 1) (by decide), Laws.EncodeSelectsRow.dset r q p v, ?_⟩
    simp [rowReaders, encode, formatD_reg, formatD_seq, fieldIdx_formatD hp, fieldVal_formatD hv]
  | gcnt q =>
    refine ⟨_, List.getElem_mem (n := 2) (by decide), Laws.EncodeSelectsRow.gcnt q, ?_⟩
    simp [rowReaders, encode, formatD_seq]
  | ldg r q g =>
    refine ⟨_, List.getElem_mem (n := 3) (by decide), Laws.EncodeSelectsRow.ldg r q g, ?_⟩
    simp [rowReaders, encode, formatD_reg, formatD_seq, fieldIdx_formatD h]
  | rdg r q g =>
    refine ⟨_, List.getElem_mem (n := 4) (by decide), Laws.EncodeSelectsRow.rdg r q g, ?_⟩
    simp [rowReaders, encode, formatD_reg, formatD_seq, fieldIdx_formatD h]
  | clr r =>
    refine ⟨_, List.getElem_mem (n := 5) (by decide), Laws.EncodeSelectsRow.clr r, ?_⟩
    simp [rowReaders, encode, formatD_reg]
  | mov rd ra =>
    refine ⟨_, List.getElem_mem (n := 6) (by decide), Laws.EncodeSelectsRow.mov rd ra, ?_⟩
    simp [rowReaders, encode, formatR_rd, formatR_ra]
  | iget r x =>
    refine ⟨_, List.getElem_mem (n := 7) (by decide), Laws.EncodeSelectsRow.iget r x, ?_⟩
    simp [rowReaders, encode, formatD_reg, fieldSidx_formatD h]
  | iset r x v =>
    obtain ⟨hx, hv⟩ := h
    refine ⟨_, List.getElem_mem (n := 8) (by decide), Laws.EncodeSelectsRow.iset r x v, ?_⟩
    simp [rowReaders, encode, formatD_reg, fieldSidx_formatD hx, fieldVal_formatD hv]
  | sget r =>
    refine ⟨_, List.getElem_mem (n := 9) (by decide), Laws.EncodeSelectsRow.sget r, ?_⟩
    simp [rowReaders, encode, formatD_reg]
  | sset r b =>
    refine ⟨_, List.getElem_mem (n := 10) (by decide), Laws.EncodeSelectsRow.sset r b, ?_⟩
    simp [rowReaders, encode, formatD_reg, fieldSign_formatD]
  | dcnt q =>
    refine ⟨_, List.getElem_mem (n := 11) (by decide), Laws.EncodeSelectsRow.dcnt q, ?_⟩
    simp [rowReaders, encode, formatD_seq]
  | add rd ra rb =>
    refine ⟨_, List.getElem_mem (n := 12) (by decide), Laws.EncodeSelectsRow.add rd ra rb, ?_⟩
    simp [rowReaders, encode, formatR_rd, formatR_ra, formatR_rb]
  | sub rd ra rb =>
    refine ⟨_, List.getElem_mem (n := 13) (by decide), Laws.EncodeSelectsRow.sub rd ra rb, ?_⟩
    simp [rowReaders, encode, formatR_rd, formatR_ra, formatR_rb]
  | mul rd ra rb =>
    refine ⟨_, List.getElem_mem (n := 14) (by decide), Laws.EncodeSelectsRow.mul rd ra rb, ?_⟩
    simp [rowReaders, encode, formatR_rd, formatR_ra, formatR_rb]
  | div rd ra rb =>
    refine ⟨_, List.getElem_mem (n := 15) (by decide), Laws.EncodeSelectsRow.div rd ra rb, ?_⟩
    simp [rowReaders, encode, formatR_rd, formatR_ra, formatR_rb]
  | cmp ra rb =>
    refine ⟨_, List.getElem_mem (n := 16) (by decide), Laws.EncodeSelectsRow.cmp ra rb, ?_⟩
    simp [rowReaders, encode, formatR_ra, formatR_rb]

/-- Settles O1: the word selects the command's row, and the row's fields are the operands. -/
theorem decodeOfEncodeGivesTheCommand : Obligations.DecodeOfEncodeGivesTheCommand := by
  unfold Obligations.DecodeOfEncodeGivesTheCommand
  intro i h
  exact decode_eq_some_iff.mpr (exists_reader_of_encode h)

/-! ## From the word to the command and back -/

/-- A field that a row's mask covers in full has the row's bits in every word that selects the row (R76, R77). -/
theorem extract_of_selects {row : OpRow} {c : CmdWord} (h : row.selects c = true) {start len : Nat} {x : BitVec len}
    (hrow : row.mask.extractLsb' start len = BitVec.allOnes len ∧ row.pattern.extractLsb' start len = x) :
    c.extractLsb' start len = x := by
  obtain ⟨hmask, hpattern⟩ := hrow
  rw [selects_iff] at h
  calc c.extractLsb' start len
      = c.extractLsb' start len &&& row.mask.extractLsb' start len := by rw [hmask, BitVec.and_allOnes]
    _ = (c &&& row.mask).extractLsb' start len := BitVec.extractLsb'_and.symm
    _ = x := by rw [h, hpattern]

/-- Two fields next to each other are one field. -/
theorem extract_append_extract (c : CmdWord) (lo len len' : Nat) :
    c.extractLsb' (lo + len) len' ++ c.extractLsb' lo len = c.extractLsb' lo (len' + len) :=
  BitVec.extractLsb'_append_extractLsb'_eq_extractLsb' rfl

/-- A format D word is its fields (R71). -/
theorem formatD_eq {c : CmdWord} {op : BitVec 6} {r : RegNum} {q : Seq} {v : BitVec 4} {x : BitVec 16}
    (hop : c.extractLsb' 26 6 = op) (hr : c.extractLsb' 23 3 = BitVec.ofFin r) (hq : c.extractLsb' 22 1 = q.bit)
    (hzero : c.extractLsb' 20 2 = 0#2) (hv : c.extractLsb' 16 4 = v) (hx : c.extractLsb' 0 16 = x) :
    formatD op r q v x = c := by
  rw [formatD, ← hop, ← hr, ← hq, ← hzero, ← hv, ← hx]
  rw [extract_append_extract c 23 3 6, extract_append_extract c 22 1, extract_append_extract c 20 2,
    extract_append_extract c 16 4, extract_append_extract c 0 16]
  exact BitVec.extractLsb'_eq_self

/-- A format R word is its fields (R70). -/
theorem formatR_eq {c : CmdWord} {op : BitVec 6} {rd ra rb : RegNum} (hop : c.extractLsb' 26 6 = op)
    (hd : c.extractLsb' 23 3 = BitVec.ofFin rd) (ha : c.extractLsb' 20 3 = BitVec.ofFin ra)
    (hb : c.extractLsb' 17 3 = BitVec.ofFin rb) (hzero : c.extractLsb' 0 17 = 0#17) : formatR op rd ra rb = c := by
  rw [formatR, ← hop, ← hd, ← ha, ← hb, ← hzero]
  rw [extract_append_extract c 23 3 6, extract_append_extract c 20 3, extract_append_extract c 17 3,
    extract_append_extract c 0 17]
  exact BitVec.extractLsb'_eq_self

/-! The fields as the encoder writes them. A register field holds its register by definition. -/

theorem extract_seq (c : CmdWord) : c.extractLsb' 22 1 = (fieldQ c).bit := by
  rw [fieldQ, getLsbD_eq_extract]
  generalize c.extractLsb' 22 1 = b
  revert b
  decide

theorem extract_idx (c : CmdWord) : c.extractLsb' 0 16 = BitVec.ofNat 16 (fieldIdx c) := by
  rw [fieldIdx, BitVec.ofNat_toNat, BitVec.setWidth_eq]

theorem extract_sidx (c : CmdWord) : c.extractLsb' 0 16 = BitVec.ofInt 16 (fieldSidx c) := BitVec.ofInt_toInt.symm

theorem extract_val (c : CmdWord) : c.extractLsb' 16 4 = BitVec.ofNat 4 (fieldVal c) := by
  rw [fieldVal, BitVec.ofNat_toNat, BitVec.setWidth_eq]

/-- SSET uses one bit of the `val` field; the three above it are 0 (R74, R76). -/
theorem extract_sign {c : CmdWord} (hzero : c.extractLsb' 17 3 = 0#3) :
    c.extractLsb' 16 4 = if fieldSign c then 1#4 else 0#4 := by
  have hsplit : c.extractLsb' 17 3 ++ c.extractLsb' 16 1 = c.extractLsb' 16 4 := extract_append_extract c 16 1 3
  rw [← hsplit, hzero, fieldSign, getLsbD_eq_extract]
  generalize c.extractLsb' 16 1 = b
  revert b
  decide

theorem read_wellFormed (c : CmdWord) : ∀ e ∈ rowReaders, (e.2 c).WellFormed := by
  have hidx : fitsIdx (fieldIdx c) := BitVec.isLt _
  have hval : fitsVal (fieldVal c) := BitVec.isLt _
  have hsidx : fitsSidx (fieldSidx c) :=
    ⟨BitVec.le_toInt _, Int.le_sub_one_of_lt BitVec.toInt_lt⟩
  simp only [rowReaders, List.forall_mem_cons, List.not_mem_nil, false_imp_iff, implies_true]
  exact ⟨hidx, ⟨hidx, hval⟩, trivial, hidx, hidx, trivial, trivial, hsidx, ⟨hsidx, hval⟩, trivial, trivial, trivial,
    trivial, trivial, trivial, trivial, trivial, trivial⟩

/-- The word of what a row reads is the word it was read from: the fields the command uses, and 0 in all others, which
the row's mask covers (R76). -/
theorem encode_read (c : CmdWord) : ∀ e ∈ rowReaders, e.1.selects c = true → encode (e.2 c) = c := by
  simp only [rowReaders, List.forall_mem_cons, List.not_mem_nil, false_imp_iff, implies_true, and_true]
  refine ⟨fun h => ?dget, fun h => ?dset, fun h => ?gcnt, fun h => ?ldg, fun h => ?rdg, fun h => ?clr, fun h => ?mov,
    fun h => ?iget, fun h => ?iset, fun h => ?sget, fun h => ?sset, fun h => ?dcnt, fun h => ?add, fun h => ?sub,
    fun h => ?mul, fun h => ?div, fun h => ?cmp⟩
  all_goals
    have fixed {start len : Nat} {x : BitVec len} := extract_of_selects h (start := start) (x := x)
  case dget | ldg | rdg =>
    exact formatD_eq (fixed (by decide)) rfl (extract_seq c) (fixed (by decide)) (fixed (by decide)) (extract_idx c)
  case dset =>
    exact formatD_eq (fixed (by decide)) rfl (extract_seq c) (fixed (by decide)) (extract_val c) (extract_idx c)
  case gcnt | dcnt =>
    exact formatD_eq (fixed (by decide)) (fixed (by decide)) (extract_seq c) (fixed (by decide)) (fixed (by decide))
      (fixed (by decide))
  case clr | sget =>
    exact formatD_eq (fixed (by decide)) rfl (fixed (by decide)) (fixed (by decide)) (fixed (by decide))
      (fixed (by decide))
  case iget =>
    exact formatD_eq (fixed (by decide)) rfl (fixed (by decide)) (fixed (by decide)) (fixed (by decide)) (extract_sidx c)
  case iset =>
    exact formatD_eq (fixed (by decide)) rfl (fixed (by decide)) (fixed (by decide)) (extract_val c) (extract_sidx c)
  case sset =>
    exact formatD_eq (fixed (by decide)) rfl (fixed (by decide)) (fixed (by decide)) (extract_sign (fixed (by decide)))
      (fixed (by decide))
  case mov => exact formatR_eq (fixed (by decide)) rfl rfl (fixed (by decide)) (fixed (by decide))
  case add | sub | mul | div => exact formatR_eq (fixed (by decide)) rfl rfl rfl (fixed (by decide))
  case cmp => exact formatR_eq (fixed (by decide)) (fixed (by decide)) rfl rfl (fixed (by decide))

/-- Settles O2: the row a word selects reads operands that fit, and its fields and fixed bits make up the word. -/
theorem encodeOfDecodeGivesTheWord : Obligations.EncodeOfDecodeGivesTheWord := by
  unfold Obligations.EncodeOfDecodeGivesTheWord
  intro c i h
  obtain ⟨e, he, hsel, rfl⟩ := decode_eq_some_iff.mp h
  exact ⟨read_wellFormed c e he, encode_read c e he hsel⟩

/-! ## One row or none -/

theorem row_read (c : CmdWord) : ∀ e ∈ rowReaders, (e.2 c).row = e.1 := by
  simp only [rowReaders, List.forall_mem_cons, List.not_mem_nil, false_imp_iff, implies_true, Instr.row, and_self]

/-- Settles O3: a word that decodes selects the row of the command it decodes to and no other, since the rows are
disjoint. -/
theorem everyWordSelectsOneRowOrDoesNotDecode : Obligations.EveryWordSelectsOneRowOrDoesNotDecode := by
  unfold Obligations.EveryWordSelectsOneRowOrDoesNotDecode
  refine ⟨rfl, fun c => ?_⟩
  cases hd : decode c with
  | none =>
    have hnone := (decode_eq_none_iff c).mp hd
    exact .inr ⟨rfl, fun row hrow => Bool.eq_false_iff.mpr (hnone row hrow)⟩
  | some i =>
    obtain ⟨e, he, hsel, rfl⟩ := decode_eq_some_iff.mp hd
    have hmem := mem_opcodeMap_of_mem_rowReaders he
    refine .inl ⟨_, rfl, ?_⟩
    rw [row_read c e he]
    refine ⟨hmem, fun row hrow => ⟨fun hsel' => ?_, fun h => ?_⟩⟩
    · exact selected_row_unique hmem hrow hsel hsel'
    · rw [h]; exact hsel

namespace Machine

/-- Settles O5, by evaluating the operand forms of the four mnemonics. -/
theorem compoundFormsNameTheDestinationTwice : Obligations.CompoundFormsNameTheDestinationTwice := by
  unfold Obligations.CompoundFormsNameTheDestinationTwice
  intro rd rb
  exact ⟨rfl, rfl, rfl, rfl, rfl, rfl, rfl, rfl⟩

end Machine
end Sys2Proof
end

section
/-! One step at the port, whatever the host does: what it keeps, and that it answers (20_memory.md R57, 30_encoding.md
R66, 70_reset_and_hazards.md R215, R216, R222). -/

namespace Sys2Proof.Machine

/-! ## The frame of a command (R26) -/

theorem samePort_withRsp (s : State) (x : Option Response) : samePort s { s with rsp := x } := ⟨rfl, rfl, rfl, rfl⟩

theorem onlyReg_setReg (s : State) (r : RegNum) (d : DReg) (x : Option Response) :
    onlyReg r s { s.setReg r d with rsp := x } :=
  ⟨⟨rfl, rfl, rfl, rfl⟩, fun _ hr' => reg_setReg_other s r _ d hr'⟩

/-- Of the three things a command can do, only one writes a register, and that is its destination. -/
theorem CommandEffect.frame {i : Instr} {s t : State} {x : Result} (h : CommandEffect i s x) (hx : x = .next t) :
    samePort s t ∧ ∀ r, destOf i ≠ some r → t.reg r = s.reg r := by
  cases h with
  | fails | reads =>
    cases hx
    exact ⟨samePort_withRsp s _, fun _ _ => rfl⟩
  | writes rd d hi _ =>
    cases hx
    obtain ⟨hport, hregs⟩ := onlyReg_setReg s rd d (some ⟨.ok, 0#64⟩)
    exact ⟨hport, fun r hr => hregs r fun h => hr (h ▸ hi)⟩

/-- Settles O24: `exec_effect` says what a command can do, and none of it reaches beyond the destination. -/
theorem onlyTheDestinationRegisterChanges : Obligations.OnlyTheDestinationRegisterChanges := by
  unfold Obligations.OnlyTheDestinationRegisterChanges
  exact fun i s t hexec => (exec_effect i s).frame hexec

/-! ## An accepted word at the port (R66) -/

/-- An accepted word, legal or not, is answered in the next state, and the port is left as accepting it left it. -/
theorem answerCommand_answers (s : State) (cmd : CmdWord) (wdata : Word) (rest : List HostAction) :
    ∃ t resp, answerCommand s cmd wdata rest = .next t ∧ t.rsp = some resp ∧
      samePort (acceptCommand s wdata rest) t := by
  cases hd : decode cmd with
  | some i =>
    obtain ⟨t, resp, hexec, hrsp, _⟩ := (exec_effect i (acceptCommand s wdata rest)).responds
    obtain ⟨hport, _⟩ := (exec_effect i (acceptCommand s wdata rest)).frame hexec
    exact ⟨t, resp, (answerCommand_of_decode hd wdata rest).trans hexec, hrsp, hport⟩
  | none => exact ⟨_, _, answerCommand_of_illegal hd wdata rest, rfl, samePort_withRsp _ _⟩

theorem answerCommand_keeps_wf {s t : State} (hs : s.wf) {cmd : CmdWord} {wdata : Word} {rest : List HostAction}
    (h : answerCommand s cmd wdata rest = .next t) : t.wf := by
  have haccepted := acceptCommand_wf hs wdata rest
  cases hd : decode cmd with
  | some i =>
    obtain ⟨u, hu, hwf⟩ := (exec_effect i _).next_wf haccepted
    rw [answerCommand_of_decode hd, hu] at h
    cases h
    exact hwf
  | none =>
    rw [answerCommand_of_illegal hd] at h
    cases h
    exact withRsp_wf _ haccepted _

/-! ## What a step can lead to -/

/-- The states that one step can lead to: the idle block, the block after reset, or the answer to a word. -/
inductive StepEffect (s : State) : State → Prop where
  | idle : StepEffect s { s with rsp := none }
  | reset (rest : List HostAction) : StepEffect s (applyReset { s with host := rest })
  | answer (cmd : CmdWord) (wdata : Word) (rest : List HostAction) (t : State)
    (h : answerCommand s cmd wdata rest = .next t) : StepEffect s t

/-- The step follows the host's next action; only a command in the power-on state leads to no state (R32). -/
theorem step_effect {s t : State} (h : step s = .next t) : StepEffect s t := by
  match hhost : s.host with
  | [] =>
    rw [step_nil s hhost] at h
    cases h
    exact .idle
  | .reset :: rest =>
    rw [step_reset s rest hhost] at h
    cases h
    exact .reset rest
  | .command cmd wdata :: rest =>
    cases hr : s.hasReset with
    | true => exact .answer cmd wdata rest t (step_command s cmd wdata rest hhost hr ▸ h)
    | false =>
      rw [step_command_before_reset s cmd wdata rest hhost hr] at h
      cases h
  | .abandoned cmd wdata :: rest =>
    cases hr : s.hasReset with
    | true =>
      rw [step_abandoned s cmd wdata rest hhost hr] at h
      cases h
      exact .reset rest
    | false =>
      rw [step_abandoned_before_reset s cmd wdata rest hhost hr] at h
      cases h

theorem applyReset_wf {s : State} (hc : s.cfg.wf) : (applyReset s).wf :=
  ⟨hc, rfl, fun r => by rw [applyReset_reg]; exact zero_wf s.cfg⟩

/-- Settles O14, by the three things a step can lead to. -/
theorem stepKeepsStatesWellFormed : Obligations.StepKeepsStatesWellFormed := by
  unfold Obligations.StepKeepsStatesWellFormed
  intro s t hs hstep
  cases step_effect hstep with
  | idle => exact withRsp_wf s hs none
  | reset rest =>
    obtain ⟨hc, _, _⟩ := hs
    exact applyReset_wf hc
  | answer cmd wdata rest _ h => exact answerCommand_keeps_wf hs h

/-- Settles O17, by the three things a step can lead to. -/
theorem stepNeverChangesTheParameters : Obligations.StepNeverChangesTheParameters := by
  unfold Obligations.StepNeverChangesTheParameters
  intro s t hstep
  cases step_effect hstep with
  | idle => rfl
  | reset rest => rfl
  | answer cmd wdata rest _ h =>
    obtain ⟨u, _, hu, _, hcfg, _⟩ := answerCommand_answers s cmd wdata rest
    cases h.symm.trans hu
    exact hcfg

/-- Settles O16: the reset state of an admitted configuration is well formed, and CFG-A is admitted. -/
theorem resetStateIsWellFormed : Obligations.ResetStateIsWellFormed := by
  unfold Obligations.ResetStateIsWellFormed
  exact ⟨resetFor_wf, resetFor_wf Config.cfgA (by decide)⟩

/-! ## One command, a run of commands, a reset -/

/-- After reset, the step that takes an offered command answers it and leaves the host's further actions (R66). -/
theorem step_command_answers {s : State} {cmd : CmdWord} {wdata : Word} {rest : List HostAction}
    (hr : s.hasReset = true) (hcmd : s.host = .command cmd wdata :: rest) :
    ∃ t resp, step s = .next t ∧ t.rsp = some resp ∧ t.host = rest ∧ t.hasReset = true ∧ t.cfg = s.cfg := by
  obtain ⟨t, resp, hnext, hrsp, hcfg, hreset, _, hhost⟩ := answerCommand_answers s cmd wdata rest
  exact ⟨t, resp, (step_command s cmd wdata rest hcmd hr).trans hnext, hrsp, hhost, hreset.trans hr, hcfg⟩

/-- Settles O12: the word is answered whether it decodes or not. -/
theorem everyAcceptedCommandIsAnswered : Obligations.EveryAcceptedCommandIsAnswered := by
  unfold Obligations.EveryAcceptedCommandIsAnswered
  intro s cmd wdata rest hr hcmd
  exact step_command_answers hr hcmd

/-- Settles O6: accepting the command is the state in which the port runs it. -/
theorem stepRunsTheDecodedCommand : Obligations.StepRunsTheDecodedCommand := by
  unfold Obligations.StepRunsTheDecodedCommand
  intro s cmd wdata rest i hr hcmd hd
  exact (step_command s cmd wdata rest hcmd hr).trans (answerCommand_of_decode hd wdata rest)

theorem run_succ_of_step {s t : State} (n : Nat) (h : step s = .next t) :
    (Host.Core.run core (n + 1) s : Result) = Host.Core.run core n t := by
  have hcore : core.step s = .next t := h
  simp only [Host.Core.run, hcore]

/-- Settles O13, by induction on the commands: each step applies the first rule and leaves the others offered. -/
theorem commandsTakeEffectInOrder : Obligations.CommandsTakeEffectInOrder := by
  unfold Obligations.CommandsTakeEffectInOrder
  intro s cmds hr hhost
  induction cmds generalizing s with
  | nil => rfl
  | cons x rest ih =>
    obtain ⟨cmd, wdata⟩ := x
    obtain ⟨t, _, hnext, _, hhost', hr', _⟩ := step_command_answers hr hhost
    have hrule := (step_command s cmd wdata _ hhost hr).symm.trans hnext
    have happly : applyRules s ((cmd, wdata) :: rest) = applyRules t rest := by rw [applyRules, hrule]
    exact (run_succ_of_step rest.length hnext).trans ((ih t hr' hhost').trans happly.symm)

/-- Settles O9: the port applies reset, whatever the state. -/
theorem resetGivesTheResetState : Obligations.ResetGivesTheResetState := by
  unfold Obligations.ResetGivesTheResetState
  intro s rest hreset
  exact ⟨_, step_reset s rest hreset, applyReset_cfg _, applyReset_hasReset _, applyReset_rsp _, applyReset_host _,
    applyReset_reg_allZero _⟩

/-! ## The response port is not read (10_state.md R29) -/

theorem step_withRsp (s : State) (x : Option Response) : step { s with rsp := x } = step s := by
  have hport : portNext { s with rsp := x } = portNext s := by
    unfold portNext
    cases s.host with
    | nil => rfl
    | cons action rest => cases action <;> rfl
  rw [step, hport, step]

/-- Settles O23: no command reads the response port, and neither does the port itself. -/
theorem earlierResponsesHaveNoEffect : Obligations.EarlierResponsesHaveNoEffect := by
  unfold Obligations.EarlierResponsesHaveNoEffect
  exact ⟨exec_withRsp, step_withRsp⟩

end Sys2Proof.Machine
end

section
/-! The arithmetic laws of ADD, SUB and MUL (42_add_sub.md R144, 43_multiply.md R162, R164). -/

namespace Sys2Proof.Machine

/-! ## Registers with the same magnitude -/

/-- In a well-formed register the magnitude fixes every group: digits by positional notation, spare nibbles by R25. -/
theorem group_eq_of_mag_eq {c : Config} {d d' : DReg} (h : d.wf c) (h' : d'.wf c) (hmag : d'.mag c = d.mag c)
    (q : Seq) {g : Nat} (hg : g < c.gcnt q) : d'.group q g = d.group q g := by
  have hdigits : d'.digits c = d.digits c :=
    listValue_inj _ _ (by simp) (digits_le_nine c d' h') (digits_le_nine c d h)
      (by rw [← mag_eq_listValue, ← mag_eq_listValue, hmag])
  have hcomb (k : Nat) (hk : k < c.N) : d'.comb c k = d.comb c k := by
    rw [← digits_getD c d' k hk, ← digits_getD c d k hk, hdigits]
  refine group_eq_of_digits c d d' h h' (fun q p hp => ?_) q g hg
  cases q with
  | I =>
    have hp' : p < c.ID := hp
    have h := hcomb (c.FD + p) (by unfold Config.N; omega)
    simpa [DReg.comb] using h
  | F =>
    have hp' : p < c.FD := hp
    have h := hcomb p (by unfold Config.N; omega)
    simpa [DReg.comb, hp'] using h

theorem sameGroups_of_mag_eq {s t : State} (hs : s.wf) (ht : t.wf) (hcfg : t.cfg = s.cfg) {r r' : RegNum}
    (hmag : mag t r' = mag s r) : sameGroups s r t r' := by
  obtain ⟨_, _, hregs⟩ := hs
  obtain ⟨_, _, hregs'⟩ := ht
  have hwf := hregs' r'
  rw [mag, hcfg] at hmag
  rw [hcfg] at hwf
  exact fun q g hg => group_eq_of_mag_eq (hregs r) hwf hmag q hg

theorem group_zero (c : Config) (q : Seq) (g : Nat) : (DReg.zero c).group q g = 0#64 := by
  rw [DReg.group, zero_seq, List.getD_eq_getElem?_getD, List.getElem?_replicate]
  split <;> rfl

theorem mag_zero (c : Config) : (DReg.zero c).mag c = 0 := by
  refine (digitSum_eq_zero _ _).mpr fun k _ => ?_
  simp [DReg.comb, DReg.digit, group_zero]

theorem groupRead_eq_zero_of_mag_eq_zero {s : State} (hs : s.wf) {r : RegNum} (hmag : mag s r = 0) (q : Seq) {g : Nat}
    (hg : g < s.cfg.gcnt q) : groupRead s r q g = 0#64 := by
  obtain ⟨_, _, hregs⟩ := hs
  have h := group_eq_of_mag_eq (zero_wf s.cfg) (hregs r) (hmag.trans (mag_zero s.cfg).symm) q hg
  rwa [group_zero] at h

theorem cfg_eq_of_onlyReg {s t : State} {rd : RegNum} (h : onlyReg rd s t) : t.cfg = s.cfg := by
  obtain ⟨⟨hcfg, _⟩, _⟩ := h
  exact hcfg

/-- A register that a command leaves alone keeps its magnitude. -/
theorem mag_eq_of_onlyReg {s t : State} {rd r : RegNum} (h : onlyReg rd s t) (hr : r ≠ rd) : mag t r = mag s r := by
  have hcfg := cfg_eq_of_onlyReg h
  obtain ⟨_, hregs⟩ := h
  rw [mag, mag, hregs r hr, hcfg]

/-! ## What a command that ran has left -/

/-- What a command leaves is determined. -/
theorem eq_of_runsOk {i : Instr} {s t u : State} (h : runsOk i s t) (hu : exec i s = .next u) : t = u := by
  obtain ⟨hexec, _⟩ := h
  cases hexec.symm.trans hu
  rfl

theorem wf_of_runsOk {i : Instr} {s t : State} (hs : s.wf) (h : runsOk i s t) : t.wf := by
  obtain ⟨u, hu, hwf⟩ := (exec_effect i s).next_wf hs
  rwa [eq_of_runsOk h hu]

/-- A command that runs does not fail. -/
theorem not_failsWith_of_runsOk {i : Instr} {s t : State} (h : runsOk i s t) {st : Status} (hst : st ≠ .ok) :
    ¬ failsWith i s st := by
  intro hfails
  cases eq_of_runsOk h hfails
  obtain ⟨_, hok⟩ := h
  cases hok
  exact hst rfl

theorem mag_of_runsOk_add {s t : State} {rd ra rb : RegNum} (hs : s.wf) (h : runsOk (.add rd ra rb) s t) :
    mag t rd = mag s ra + mag s rb ∧ onlyReg rd s t := by
  have hlt : mag s ra + mag s rb < 10 ^ s.cfg.N := by
    by_contra hge
    exact not_failsWith_of_runsOk h (by decide) (exec_add_of_le rd (Nat.not_lt.mp hge))
  obtain ⟨u, ⟨hu, _⟩, hmag, _, honly⟩ := add_leaves_sum rd hs hlt
  rw [eq_of_runsOk h hu]
  exact ⟨hmag, honly⟩

theorem mag_of_runsOk_mul {s t : State} {rd ra rb : RegNum} (hs : s.wf) (h : runsOk (.mul rd ra rb) s t) :
    mag t rd = mulSum s ra rb ∧ onlyReg rd s t := by
  have hlt : mulSum s ra rb < 10 ^ s.cfg.N := by
    by_contra hge
    exact not_failsWith_of_runsOk h (by decide) (exec_mul_of_le hs rd (Nat.not_lt.mp hge))
  obtain ⟨u, ⟨hu, _⟩, hmag, _, honly⟩ := mul_leaves_sum hs rd hlt
  rw [eq_of_runsOk h hu]
  exact ⟨hmag, honly⟩

/-! ## Adder and subtractor (R144) -/

/-- Settles O49: on magnitudes both sides are `a + b + c`, and the magnitude fixes the groups. -/
theorem addIsAssociative : Obligations.AddIsAssociative := by
  unfold Obligations.AddIsAssociative
  intro s t1 t2 u1 u2 a b c d hs hda hdc ht1 ht2 hu1 hu2
  have hwt1 := wf_of_runsOk hs ht1
  have hwu1 := wf_of_runsOk hs hu1
  obtain ⟨hmt1, hot1⟩ := mag_of_runsOk_add hs ht1
  obtain ⟨hmt2, hot2⟩ := mag_of_runsOk_add hwt1 ht2
  obtain ⟨hmu1, hou1⟩ := mag_of_runsOk_add hs hu1
  obtain ⟨hmu2, hou2⟩ := mag_of_runsOk_add hwu1 hu2
  have hc := mag_eq_of_onlyReg hot1 hdc.symm
  have ha := mag_eq_of_onlyReg hou1 hda.symm
  have hcfg : u2.cfg = t2.cfg := by
    rw [cfg_eq_of_onlyReg hou2, cfg_eq_of_onlyReg hou1, cfg_eq_of_onlyReg hot2, cfg_eq_of_onlyReg hot1]
  refine sameGroups_of_mag_eq (wf_of_runsOk hwt1 ht2) (wf_of_runsOk hwu1 hu2) hcfg ?_
  omega

/-- ADD in the other order commits the same digits or raises the same status (R144). -/
theorem exec_add_comm (rd ra rb : RegNum) (s : State) :
    (exec (.add rd ra rb) s = raise .overflow s ∧ exec (.add rd rb ra) s = raise .overflow s) ∨
    ∃ ds, exec (.add rd ra rb) s = respondOk (commitValue s rd ds (copiedSign s ra)) ∧
      exec (.add rd rb ra) s = respondOk (commitValue s rd ds (copiedSign s rb)) := by
  simp only [exec, execAdd, addChain_comm ((s.reg rb).digits s.cfg)]
  split
  · exact .inl ⟨rfl, rfl⟩
  · exact .inr ⟨_, rfl, rfl⟩

/-- Settles O48: only the sign that is written can tell the two orders apart. -/
theorem addCommutes : Obligations.AddCommutes := by
  unfold Obligations.AddCommutes
  intro s rd ra rb
  obtain ⟨h, h'⟩ | ⟨ds, h, h'⟩ := exec_add_comm rd ra rb s
  · exact ⟨_, _, h, h', rfl, rfl, rfl, fun _ _ => rfl⟩
  · refine ⟨_, _, h, h', rfl, ?_, ?_, fun r hr => ?_⟩
    · simp only [withRsp_reg, commitValue_reg, if_true]
    · simp only [withRsp_reg, commitValue_reg, if_true]
    · simp only [withRsp_reg, commitValue_reg, hr, if_false]

/-- Settles O50, on magnitudes: `m + 0 = m`, `m - 0 = m` and `m - m = 0`. -/
theorem zeroIsTheIdentityAndSelfDifferenceIsZero : Obligations.ZeroIsTheIdentityAndSelfDifferenceIsZero := by
  unfold Obligations.ZeroIsTheIdentityAndSelfDifferenceIsZero
  refine ⟨fun s rd ra rb hs hzero => ⟨?_, ?_⟩, fun s rd ra hs => ?_⟩
  · have ⟨_, _, hregs⟩ := hs
    have hlt : mag s ra < 10 ^ s.cfg.N := mag_lt s.cfg _ (hregs ra)
    obtain ⟨t, hrun, hmag, _, honly⟩ := add_leaves_sum rd hs (ra := ra) (rb := rb) (by omega)
    exact ⟨t, hrun, sameGroups_of_mag_eq hs (wf_of_runsOk hs hrun) (cfg_eq_of_onlyReg honly) (by omega)⟩
  · obtain ⟨t, hrun, hmag, _, honly⟩ := sub_leaves_difference rd hs (ra := ra) (rb := rb) (by omega)
    exact ⟨t, hrun, sameGroups_of_mag_eq hs (wf_of_runsOk hs hrun) (cfg_eq_of_onlyReg honly) (by omega)⟩
  · obtain ⟨t, hrun, hmag, hsign, honly⟩ := sub_leaves_difference rd hs (le_refl (mag s ra))
    rw [Nat.sub_self] at hmag
    refine ⟨t, hrun, hmag, hsign, fun q g hg => ?_⟩
    exact groupRead_eq_zero_of_mag_eq_zero (wf_of_runsOk hs hrun) hmag q (cfg_eq_of_onlyReg honly ▸ hg)

/-! ## The multiplier against the exact product (R162) -/

/-- When no partial product drops a nonzero digit, `R` is the whole product. -/
theorem pow_FD_mul_mulSum {s : State} {ra rb : RegNum} (h : dropsNoDigit s ra rb) :
    10 ^ s.cfg.FD * mulSum s ra rb = mag s ra * mag s rb := by
  have hdrop : droppedSum s.cfg (combRead s ra) (mag s rb) s.cfg.N = 0 :=
    Finset.sum_eq_zero fun i hi => Nat.mod_eq_zero_of_dvd (h i (Finset.mem_range.mp hi))
  have hsum : 10 ^ s.cfg.FD * mulSum s ra rb + _ = mag s ra * mag s rb :=
    partialSum_add_droppedSum s.cfg (combRead s ra) (mag s rb) s.cfg.N
  rwa [hdrop, Nat.add_zero] at hsum

/-- Only fractional digits of the left operand can drop anything (R161). -/
theorem dropsNoDigit_of_fraction {s : State} {ra rb : RegNum}
    (h : ∀ i < s.cfg.FD, 10 ^ s.cfg.FD ∣ combRead s ra i * 10 ^ i * mag s rb) : dropsNoDigit s ra rb := by
  intro i _
  rcases Nat.lt_or_ge i s.cfg.FD with hi | hi
  · exact h i hi
  · exact pow_FD_dvd_of_le hi _ _

theorem mulSum_eq_mulExact_of_fraction {s : State} {ra rb : RegNum}
    (h : ∀ i < s.cfg.FD, 10 ^ s.cfg.FD ∣ combRead s ra i * 10 ^ i * mag s rb) : mulSum s ra rb = mulExact s ra rb := by
  rw [mulExact, ← pow_FD_mul_mulSum (dropsNoDigit_of_fraction h), Nat.mul_div_cancel_left _ (by positivity)]

theorem mulExact_sub_mulSum_le (s : State) (ra rb : RegNum) :
    mulExact s ra rb - mulSum s ra rb ≤ max (s.cfg.FD - 1) 0 := by
  have h := mulExact_le_mulSum_add s ra rb
  omega

theorem mulSum_eq_mulExact_of_FD_le_one {s : State} {ra rb : RegNum} (h : s.cfg.FD ≤ 1) :
    mulSum s ra rb = mulExact s ra rb := by
  have hle := mulSum_le_mulExact s ra rb
  have hge := mulExact_le_mulSum_add s ra rb
  omega

/-- `D0 = 000.15` in CFG-A (R162). -/
def truncatedSquareState : State := operandState .cfgA ⟨[0x00, 0x00], [0x15], false⟩ (DReg.zero .cfgA)

/-- `000.15 * 000.15` (R162): the partial products are 0 and 1, and the exact product is 0.0225. -/
theorem mul_below_exact : ∃ s t : State, s.wf ∧ s.cfg.ID = 3 ∧ s.cfg.FD = 2 ∧ mag s 0 = 15 ∧ runsOk (.mul 1 0 0) s t ∧
    mag t 1 = 1 ∧ mulExact s 0 0 = 2 := by
  have hs : truncatedSquareState.wf := by decide
  have hsum : mulSum truncatedSquareState 0 0 = 1 := by decide
  obtain ⟨t, hrun, hmag, _⟩ := mul_leaves_sum hs 1 (ra := 0) (rb := 0) (by decide)
  exact ⟨truncatedSquareState, t, hs, rfl, rfl, by decide, hrun, hmag.trans hsum, by decide⟩

/-- Settles O52: MUL leaves `R`, which the lemmas above hold against `E`. -/
theorem mulTruncationIsBounded : Obligations.MulTruncationIsBounded := by
  unfold Obligations.MulTruncationIsBounded
  refine ⟨fun s t rd ra rb hs hrun => ?_, mul_below_exact, fun s ra rb => ⟨mulSum_le_mulExact s ra rb,
    mulExact_sub_mulSum_le s ra rb, mulSum_eq_mulExact_of_FD_le_one, mulSum_eq_mulExact_of_fraction⟩⟩
  obtain ⟨hmag, _⟩ := mag_of_runsOk_mul hs hrun
  rw [hmag]
  refine ⟨mulSum_le_mulExact s ra rb, mulExact_sub_mulSum_le s ra rb, mulSum_eq_mulExact_of_FD_le_one,
    mulSum_eq_mulExact_of_fraction, fun hfrac => mulSum_eq_mulExact_of_fraction fun i hi => ?_⟩
  obtain ⟨hzero, _⟩ := hfrac i hi
  simp [hzero]

/-! ## Distributivity (R164) -/

/-- `R` depends on the two operands alone. -/
theorem mulSum_eq_of_onlyReg {s t : State} {rd ra rb : RegNum} (h : onlyReg rd s t) (ha : ra ≠ rd) (hb : rb ≠ rd) :
    mulSum t ra rb = mulSum s ra rb := by
  have hmag := mag_eq_of_onlyReg h hb
  have hcfg := cfg_eq_of_onlyReg h
  obtain ⟨_, hregs⟩ := h
  have hcomb : combRead t ra = combRead s ra := by
    funext k
    rw [combRead, combRead, hregs ra ha, hcfg]
  rw [mulSum, mulSum, hcomb, hmag, hcfg]

/-- Settles O55: scaled by `10^FD`, both sides are `A * (B + C)`, and the magnitude fixes the groups. -/
theorem mulDistributesWhenNothingIsDropped : Obligations.MulDistributesWhenNothingIsDropped := by
  unfold Obligations.MulDistributesWhenNothingIsDropped
  intro s t1 t2 u1 u2 u3 a b c d e hs hda hea hec hed ht1 ht2 hu1 hu2 hu3 hdrop hdropb hdropc
  have hwt1 := wf_of_runsOk hs ht1
  have hwu1 := wf_of_runsOk hs hu1
  have hwu2 := wf_of_runsOk hwu1 hu2
  obtain ⟨hmt1, hot1⟩ := mag_of_runsOk_add hs ht1
  obtain ⟨hmt2, hot2⟩ := mag_of_runsOk_mul hwt1 ht2
  obtain ⟨hmu1, hou1⟩ := mag_of_runsOk_mul hs hu1
  obtain ⟨hmu2, hou2⟩ := mag_of_runsOk_mul hwu1 hu2
  obtain ⟨hmu3, hou3⟩ := mag_of_runsOk_add hwu2 hu3
  have hcfgt := cfg_eq_of_onlyReg hot1
  have hcfg : u3.cfg = t2.cfg := by
    rw [cfg_eq_of_onlyReg hou3, cfg_eq_of_onlyReg hou2, cfg_eq_of_onlyReg hou1, cfg_eq_of_onlyReg hot2, hcfgt]
  refine sameGroups_of_mag_eq (wf_of_runsOk hwt1 ht2) (wf_of_runsOk hwu2 hu3) hcfg ?_
  have hpos : 0 < 10 ^ s.cfg.FD := by positivity
  refine Nat.eq_of_mul_eq_mul_left hpos ?_
  have hleft := pow_FD_mul_mulSum hdrop
  rw [hcfgt, mag_eq_of_onlyReg hot1 hda.symm, hmt1] at hleft
  calc 10 ^ s.cfg.FD * mag u3 d
      = 10 ^ s.cfg.FD * mulSum s a b + 10 ^ s.cfg.FD * mulSum s a c := by
        rw [hmu3, mag_eq_of_onlyReg hou2 hed, hmu1, hmu2, mulSum_eq_of_onlyReg hou1 hea.symm hec.symm, Nat.mul_add]
    _ = mag s a * (mag s b + mag s c) := by
        rw [pow_FD_mul_mulSum hdropb, pow_FD_mul_mulSum hdropc, Nat.mul_add]
    _ = 10 ^ s.cfg.FD * mag t2 d := by rw [hmt2, hleft]

/-- A one-group register of `ID = 1`, `FD = 1` that holds `0.f`. -/
def tenths (f : Word) : DReg := ⟨[0x00], [f], false⟩

/-- `ID = 1`, `FD = 1`, `D0 = 0.5`, `D1 = D2 = 0.1` (log 12) and `D3 = 0.f`, after a response or none. -/
def nonDistributingState (f : Word) (x : Option Response) : State :=
  let s := operandState ⟨.w8, 1, 1⟩ (tenths 0x05) (tenths 0x01)
  { (s.setReg 2 (tenths 0x01)).setReg 3 (tenths f) with rsp := x }

/-- Settles O56, by evaluating the five commands on the example: `0.1 + 0.1 = 0.2` and `0.5 * 0.2 = 0.1`, while
`0.5 * 0.1` is cut to 0, which `D4` and `D5` hold already. -/
theorem equalToTruncatedProductIsNotEnoughToDistribute :
    Obligations.EqualToTruncatedProductIsNotEnoughToDistribute := by
  unfold Obligations.EqualToTruncatedProductIsNotEnoughToDistribute
  have hexact (f : Word) (x : Option Response) (rb : RegNum) :
      mulSum (nonDistributingState f x) 0 rb = mulExact (nonDistributingState f x) 0 rb :=
    mulSum_eq_mulExact_of_FD_le_one (le_refl 1)
  exact ⟨nonDistributingState 0 none, nonDistributingState 2 (some ⟨.ok, 0⟩), nonDistributingState 1 (some ⟨.ok, 0⟩),
    nonDistributingState 0 (some ⟨.ok, 0⟩), nonDistributingState 0 (some ⟨.ok, 0⟩),
    nonDistributingState 0 (some ⟨.ok, 0⟩), by decide, rfl, ⟨rfl, rfl⟩, ⟨rfl, rfl⟩, ⟨rfl, rfl⟩, ⟨rfl, rfl⟩,
    ⟨rfl, rfl⟩, hexact 2 _ 3, hexact 0 _ 1, hexact 0 _ 2, by decide⟩

end Sys2Proof.Machine
end

section
/-! What a command does not read: the write data (30_encoding.md R75) and the right operand's sign (00_scope.md R10); and
how wide its answer is (R90). -/

namespace Sys2Proof.Machine

/-! ## The write data (R65, R75) -/

/-- The outcome with the next state changed. -/
def onNext (f : State → State) (x : Result) : Result :=
  match x with
  | .next t => .next (f t)
  | .fault e => .fault e
  | .refused e => .refused e

theorem onNext_ite (f : State → State) (p : Prop) [Decidable p] (x y : Result) :
    onNext f (if p then x else y) = if p then onNext f x else onNext f y := apply_ite (onNext f) p x y

/-- Every command but LDG hands the write data on unread. -/
theorem exec_withWdata {i : Instr} (hi : ∀ r q g, i ≠ .ldg r q g) (s : State) (d : Word) :
    exec i { s with wdata := d } = onNext (fun t => { t with wdata := d }) (exec i s) := by
  cases i with
  | ldg r q g => exact absurd rfl (hi r q g)
  | gcnt | clr | mov | sget | sset | dcnt | div | cmp => rfl
  | dget => simp only [exec, execDget, onNext_ite]; rfl
  | rdg => simp only [exec, execRdg, onNext_ite]; rfl
  | add => simp only [exec, execAdd, onNext_ite]; rfl
  | sub => simp only [exec, execSub, onNext_ite]; rfl
  | mul => simp only [exec, execMul, onNext_ite]; rfl
  | dset r q p v =>
    simp only [exec, execDset]
    split <;> rfl
  | iget r x =>
    simp only [exec, execIget]
    split <;> rfl
  | iset r x v =>
    simp only [exec, execIset]
    split
    · rfl
    · split <;> rfl

/-- Settles O26: every command but LDG hands the write data on unread. -/
theorem onlyLdgReadsTheWriteData : Obligations.OnlyLdgReadsTheWriteData := by
  unfold Obligations.OnlyLdgReadsTheWriteData
  intro i s t d hi hexec
  rw [exec_withWdata hi, hexec]
  rfl

/-! ## The sign of the right operand (R10) -/

theorem withSign_digits (c : Config) (d : DReg) (b : Bool) : ({ d with sign := b } : DReg).digits c = d.digits c :=
  List.map_congr_left fun _ _ => withSign_comb c d _ b

theorem setSeq_withSign (d : DReg) (q : Seq) (ws : List Word) (b : Bool) :
    ({ d with sign := b } : DReg).setSeq q ws = { d.setSeq q ws with sign := b } := by cases q <;> rfl

theorem setComb_withSign (c : Config) (d : DReg) (k v : Nat) (b : Bool) :
    ({ d with sign := b } : DReg).setComb c k v = { d.setComb c k v with sign := b } := by
  simp only [DReg.setComb, DReg.setDigit, DReg.setGroup, withSign_group, withSign_seq, setSeq_withSign]
  split <;> rfl

theorem setCombs_withSign (c : Config) (d : DReg) (k : Nat) (vs : List Nat) (b : Bool) :
    ({ d with sign := b } : DReg).setCombs c k vs = { d.setCombs c k vs with sign := b } := by
  induction vs generalizing d k with
  | nil => rfl
  | cons v rest ih => rw [DReg.setCombs, setComb_withSign, ih, DReg.setCombs]

theorem signWrite_cfg (s : State) (r : RegNum) (b : Bool) : (signWrite s r b).cfg = s.cfg := rfl

theorem digits_signWrite (s : State) (r r' : RegNum) (b : Bool) :
    ((signWrite s r b).reg r').digits s.cfg = (s.reg r').digits s.cfg := by
  rw [signWrite_reg]
  split
  next h => rw [withSign_digits, h]
  next => rfl

theorem copiedSign_signWrite (s : State) {r ra : RegNum} (h : ra ≠ r) (b : Bool) :
    copiedSign (signWrite s r b) ra = copiedSign s ra := by
  rw [copiedSign, copiedSign, signRead, signRead, signWrite_reg, if_neg h]

/-- ADD, SUB and MUL take the same outcome, with the same digits and sign to commit, whatever the right operand's sign:
the datapath reads digits alone. -/
theorem exec_arith_signWrite {s : State} {rd ra rb : RegNum} {i : Instr}
    (hi : i ∈ [Instr.add rd ra rb, Instr.sub rd ra rb, Instr.mul rd ra rb]) (hne : rb ≠ ra) (b : Bool) :
    (∃ st, exec i s = raise st s ∧ exec i (signWrite s rb b) = raise st (signWrite s rb b)) ∨
    ∃ ds sgn, exec i s = respondOk (commitValue s rd ds sgn) ∧
      exec i (signWrite s rb b) = respondOk (commitValue (signWrite s rb b) rd ds sgn) := by
  have hsign := copiedSign_signWrite s hne.symm b
  simp only [List.mem_cons, List.not_mem_nil, or_false] at hi
  obtain rfl | rfl | rfl := hi
  · simp only [exec, execAdd, signWrite_cfg, digits_signWrite, hsign]
    split
    · exact .inl ⟨_, rfl, rfl⟩
    · exact .inr ⟨_, _, rfl, rfl⟩
  · simp only [exec, execSub, signWrite_cfg, digits_signWrite, hsign]
    split
    · exact .inl ⟨_, rfl, rfl⟩
    · exact .inr ⟨_, _, rfl, rfl⟩
  · simp only [exec, execMul, signWrite_cfg, digits_signWrite, hsign]
    split
    · exact .inl ⟨_, rfl, rfl⟩
    · exact .inr ⟨_, _, rfl, rfl⟩

/-- The commit overwrites the sign of its destination, so an earlier one leaves no trace there. -/
theorem commitValue_signWrite_reg (s : State) (rd rb r : RegNum) (ds : List Nat) (sgn b : Bool) :
    (commitValue (signWrite s rb b) rd ds sgn).reg r =
      if r = rd then (commitValue s rd ds sgn).reg r else (signWrite s rb b).reg r := by
  rw [commitValue_reg, commitValue_reg]
  split
  next =>
    rw [signWrite_reg, signWrite_cfg]
    split
    next h => rw [setCombs_withSign, h]
    next => rfl
  next => rfl

theorem signWrite_reg_other (s : State) {r r' : RegNum} (b : Bool) (h : r' ≠ r) :
    (signWrite s r b).reg r' = s.reg r' := by rw [signWrite_reg, if_neg h]

theorem seq_signWrite (s : State) (r r' : RegNum) (b : Bool) (q : Seq) :
    ((signWrite s r b).reg r').seq q = (s.reg r').seq q := by
  rw [signWrite_reg]
  split
  next h => rw [withSign_seq, h]
  next => rfl

/-- Settles O27: with another sign on the right operand the command raises the same status or commits the same digits
and sign. -/
theorem rightOperandSignHasNoEffect : Obligations.RightOperandSignHasNoEffect := by
  unfold Obligations.RightOperandSignHasNoEffect
  intro s rd ra rb b hne i hi
  obtain ⟨st, h, h'⟩ | ⟨ds, sgn, h, h'⟩ := exec_arith_signWrite (s := s) hi hne b
  · exact ⟨_, _, h, h', rfl, fun r hr => signWrite_reg_other s b hr, fun q => seq_signWrite s rb rb b q⟩
  · refine ⟨_, _, h, h', rfl, fun r hr => ?_, fun q => ?_⟩
    · simp only [withRsp_reg, commitValue_signWrite_reg, signWrite_reg_other s b hr]
      split
      next => rfl
      next hrd => rw [commitValue_reg, if_neg hrd]
    · simp only [withRsp_reg, commitValue_signWrite_reg]
      split
      next => rfl
      next hrd => rw [seq_signWrite, commitValue_reg, if_neg hrd]

/-! ## The width of an answer (R8, R90) -/

/-- Whatever the command answers, the data fits the wires. -/
def DataFits (c : Config) (x : Result) : Prop :=
  ∀ t resp, x = .next t → t.rsp = some resp → resp.data.toNat < 2 ^ c.RW

theorem respond_fits {c : Config} {data : Word} (h : data.toNat < 2 ^ c.RW) (st : Status) (s : State) :
    DataFits c (respond st data s) := by
  intro t resp ht hrsp
  cases ht
  cases hrsp
  exact h

theorem raise_fits (c : Config) (st : Status) (s : State) : DataFits c (raise st s) :=
  respond_fits (Nat.two_pow_pos _) st s

/-- Every number a command reports is below `2^16`, and `RW` is at least 16. -/
theorem respondNat_fits (c : Config) {n : Nat} (h : n < 2 ^ 16) (s : State) : DataFits c (respondNat n s) := by
  refine respond_fits ?_ .ok s
  calc (BitVec.ofNat 64 n).toNat ≤ n := by rw [BitVec.toNat_ofNat]; exact Nat.mod_le _ _
    _ < 2 ^ 16 := h
    _ ≤ 2 ^ c.RW := Nat.pow_le_pow_right (by decide) (le_max_right _ _)

/-- A command with a destination reports no data (R90). -/
theorem CommandEffect.fits_of_destOf {i : Instr} {s : State} {x : Result} {r : RegNum} (h : CommandEffect i s x)
    (hi : destOf i = some r) (c : Config) : DataFits c x := by
  cases h with
  | fails st _ => exact raise_fits c st s
  | reads data hnone => cases hi.symm.trans hnone
  | writes rd d _ _ => exact respond_fits (Nat.two_pow_pos _) .ok _

theorem digitRead_lt (s : State) (r : RegNum) (q : Seq) (p : Nat) : digitRead s r q p < 2 ^ 16 :=
  (extractField_lt _ _).trans (by decide)

theorem cnt_lt {c : Config} (hc : c.wf) (q : Seq) : c.cnt q < 2 ^ 16 := by
  obtain ⟨_, hID, hFD⟩ := hc
  cases q with
  | I => exact lt_of_le_of_lt hID (by decide)
  | F => exact lt_of_le_of_lt hFD (by decide)

/-- `ceil(a / b)` is the least `m` with `a ≤ m * b` (R13). -/
theorem ceilDiv_le_iff {a b m : Nat} (hb : 0 < b) : ceilDiv a b ≤ m ↔ a ≤ m * b := by
  rw [ceilDiv, ← Nat.lt_succ_iff, Nat.div_lt_iff_lt_mul hb, Nat.succ_mul]
  omega

theorem gcnt_le_iff {c : Config} {q : Seq} {m : Nat} : c.gcnt q ≤ m ↔ c.cnt q ≤ m * c.DPG := by
  rw [gcnt_eq, ceilDiv_le_iff (DPG_pos c)]

theorem gcnt_le_cnt (c : Config) (q : Seq) : c.gcnt q ≤ c.cnt q :=
  gcnt_le_iff.mpr (Nat.le_mul_of_pos_right _ (DPG_pos c))

/-- Legal group contents are `W` bits wide. -/
theorem wireWord_of_groupLegal {c : Config} {q : Seq} {g : Nat} {w : Word} (h : groupLegal c q g w) :
    wireWord c w = w := by
  apply word_eq_of_extractField
  intro o ho
  rw [extractField_wireWord]
  split
  next => rfl
  next hD =>
    have hle := h o ho
    rw [if_neg fun hin => hD hin.1] at hle
    exact (Nat.le_zero.mp hle).symm

theorem toNat_wireWord_lt (c : Config) (w : Word) : (wireWord c w).toNat < 2 ^ c.W.bits := by
  rw [wireWord, BitVec.toNat_ofNat]
  exact lt_of_le_of_lt (Nat.mod_le _ _) (Nat.mod_lt _ (Nat.two_pow_pos _))

theorem toNat_groupRead_lt {s : State} (hs : s.wf) (r : RegNum) {q : Seq} {g : Nat} (hg : g < s.cfg.gcnt q) :
    (groupRead s r q g).toNat < 2 ^ s.cfg.RW := by
  obtain ⟨_, _, hregs⟩ := hs
  have hlegal := groupLegal_of_wf s.cfg _ (hregs r) q g hg
  calc (groupRead s r q g).toNat = (wireWord s.cfg (groupRead s r q g)).toNat := by
        rw [groupRead, wireWord_of_groupLegal hlegal]
    _ < 2 ^ s.cfg.W.bits := toNat_wireWord_lt _ _
    _ ≤ 2 ^ s.cfg.RW := Nat.pow_le_pow_right (by decide) (le_max_left _ _)

theorem exec_fits (i : Instr) {s : State} (hs : s.wf) : DataFits s.cfg (exec i s) := by
  have ⟨hc, _, _⟩ := hs
  cases i with
  | dset | ldg | clr | mov | iset | sset | add | sub | mul => exact (exec_effect _ s).fits_of_destOf rfl s.cfg
  | dget r q p =>
    simp only [exec, execDget]
    split
    · exact respondNat_fits s.cfg (digitRead_lt s r q p) s
    · split
      · exact respondNat_fits s.cfg (by decide) s
      · exact raise_fits s.cfg _ s
  | gcnt q => exact respondNat_fits s.cfg (lt_of_le_of_lt (gcnt_le_cnt s.cfg q) (cnt_lt hc q)) s
  | rdg r q g =>
    simp only [exec, execRdg]
    split
    next => exact raise_fits s.cfg _ s
    next hg => exact respond_fits (toNat_groupRead_lt hs r (Nat.not_le.mp hg)) .ok s
  | iget r x =>
    simp only [exec, execIget]
    split
    · exact raise_fits s.cfg _ s
    · exact respondNat_fits s.cfg (digitRead_lt s r _ _) s
  | sget r =>
    refine respondNat_fits s.cfg ?_ s
    unfold signNat
    split <;> decide
  | dcnt q => exact respondNat_fits s.cfg (cnt_lt hc q) s
  | div => exact raise_fits s.cfg _ s
  | cmp ra rb => exact respondNat_fits s.cfg (lt_of_le_of_lt (orderingCode_le_two _) (by decide)) s

/-- Settles O18: numbers are below `2^16`, a group of a well-formed register is `W` bits wide, and all else is 0. -/
theorem responseDataFitsThePort : Obligations.ResponseDataFitsThePort := by
  unfold Obligations.ResponseDataFitsThePort
  exact fun i s t resp hs => exec_fits i hs t resp

/-! ## The relations a host derives from the code of CMP (R93) -/

/-- Settles O58: each relation tests for one of the three codes, which stand for the three orders (R176). -/
theorem relationsFollowFromTheCmpCode : Obligations.RelationsFollowFromTheCmpCode := by
  unfold Obligations.RelationsFollowFromTheCmpCode
  intro s ra rb hs
  obtain ⟨k, hread, _, hless, hgreater, hequal⟩ := cmpIsTheOrderOfTheValues s ra rb hs
  refine ⟨k, hread, ?_, ?_, ?_, ?_, ?_, ?_⟩
  · rw [Relation.holds, beq_iff_eq, hequal]
  · rw [Relation.holds, bne_iff_ne, ne_eq, hequal]
  · rw [Relation.holds, beq_iff_eq, hless]
  · rw [Relation.holds, bne_iff_ne, ne_eq, hgreater, not_lt]
  · rw [Relation.holds, beq_iff_eq, hgreater]
  · rw [Relation.holds, bne_iff_ne, ne_eq, hless, not_lt]

/-- Settles O59: DIV raises its status and reads no operand. -/
theorem divIsAlwaysUnspecified : Obligations.DivIsAlwaysUnspecified := by
  unfold Obligations.DivIsAlwaysUnspecified
  exact fun s _ _ _ => raise_eq .divisionUnspecified s

end Sys2Proof.Machine
end

section
/-! The commands that read and write digits, groups, signs and whole registers (40_digit_group_store.md R100 to R104,
41_decimal_access.md R120 to R126). -/

namespace Sys2Proof.Machine

/-! ## Digit reads: DGET (R100) -/

/-- Settles O31, by the three branches of DGET. -/
theorem dgetReadsADigitOrPads : Obligations.DgetReadsADigitOrPads := by
  unfold Obligations.DgetReadsADigitOrPads
  intro s r p
  refine ⟨fun q hp => ?_, fun hp => ?_, fun hp => ?_⟩
  · exact (if_pos hp).trans (respondNat_eq (digitRead s r q p) s)
  · have hnot : ¬ p < s.cfg.cnt .F := Nat.not_lt.mpr hp
    exact (if_neg hnot).trans (respondNat_eq 0 s)
  · have hnot : ¬ p < s.cfg.cnt .I := Nat.not_lt.mpr hp
    exact (if_neg hnot).trans (raise_eq .indexOutOfRange s)

/-! ## Digit writes: DSET (R101) -/

section
variable {s : State} {q : Seq} {p v : Nat} (r : RegNum)

theorem exec_dset_of_error {e : Status} (h : digitWriteError s.cfg q p v = some e) :
    exec (.dset r q p v) s = raise e s := by
  simp only [exec, execDset, h]

theorem exec_dset_of_legal (hp : p < s.cfg.cnt q) (hv : v ≤ 9) :
    exec (.dset r q p v) s = respondOk (digitWrite s r q p v) := by
  simp only [exec, execDset, (digitWriteError_eq_none s.cfg q p v).mpr ⟨hp, hv⟩]

end

theorem digitWriteError_of_le {c : Config} {q : Seq} {p : Nat} (hp : c.cnt q ≤ p) (v : Nat) :
    digitWriteError c q p v = some .indexOutOfRange := if_pos hp

theorem digitWriteError_of_lt {c : Config} {q : Seq} {p : Nat} (hp : p < c.cnt q) (v : Nat) :
    digitWriteError c q p v = if 9 < v then some .digitOutOfRange else none := if_neg (Nat.not_le.mpr hp)

/-- Settles O33: the verdict on the write looks at the address first. -/
theorem dsetChecksTheAddressFirst : Obligations.DsetChecksTheAddressFirst := by
  unfold Obligations.DsetChecksTheAddressFirst
  intro s r q p v
  refine ⟨fun hp => ?_, fun hp hv => ?_⟩
  · exact (exec_dset_of_error r (digitWriteError_of_le hp v)).trans (raise_eq _ s)
  · have herror := (digitWriteError_of_lt hp v).trans (if_pos hv)
    exact (exec_dset_of_error r herror).trans (raise_eq _ s)

/-- What a command leaves that answers Ok and writes one digit in range (R45). -/
theorem runsOk_of_digitWrite {i : Instr} {s : State} {r : RegNum} {q : Seq} {p v : Nat} (hs : s.wf)
    (hp : p < s.cfg.cnt q) (hv : v ≤ 9) (hexec : exec i s = respondOk (digitWrite s r q p v)) :
    ∃ t, runsOk i s t ∧ onlyReg r s t ∧ (t.reg r).sign = (s.reg r).sign ∧ digitRead t r q p = v ∧
      ∀ q' g o, o < 16 → ¬ (q' = q ∧ g = p / s.cfg.DPG ∧ o = p % s.cfg.DPG) →
        extractField (groupRead t r q' g) o = extractField (groupRead s r q' g) o := by
  have hv16 : v < 16 := by omega
  refine ⟨_, ⟨hexec.trans (respondOk_eq _), rfl⟩, onlyReg_setReg s r _ _, digitWrite_sign s r r q p v,
    field_digitWrite_same hs hp hv16 r, fun q' g o ho hne => ?_⟩
  exact (field_digitWrite hs hp hv16 r r q' ho).trans (if_neg fun ⟨_, hsame⟩ => hne hsame)

/-- Settles O32: the verdict lets the write pass, and `runsOk_of_digitWrite` says what it leaves. -/
theorem dsetWritesOneDigit : Obligations.DsetWritesOneDigit := by
  unfold Obligations.DsetWritesOneDigit
  intro s r q p v hs hp hv
  exact runsOk_of_digitWrite hs hp hv (exec_dset_of_legal r hp hv)

/-! ## Counts: GCNT and DCNT (R102, R126) -/

/-- Settles O34: the group count is the digit count divided by the group size and rounded up (`gcnt_le_iff`). -/
theorem countsAreTheParameters : Obligations.CountsAreTheParameters := by
  unfold Obligations.CountsAreTheParameters
  intro s
  exact ⟨respondNat_eq _ s, respondNat_eq _ s, rfl, rfl, fun q =>
    ⟨respondNat_eq _ s, gcnt_le_iff.mp le_rfl, fun _ hm => gcnt_le_iff.mpr hm⟩⟩

/-! ## Groups: LDG and RDG (R103, R104) -/

section
variable {s : State} {q : Seq} {g : Nat}

theorem exec_ldg_of_error (r : RegNum) {e : Status} (h : groupWriteError s.cfg q g (writeData s) = some e) :
    exec (.ldg r q g) s = raise e s := by
  simp only [exec, execLdg, h]

theorem exec_ldg_of_legal (r : RegNum) (h : groupWriteError s.cfg q g (writeData s) = none) :
    exec (.ldg r q g) s = respondOk (groupWrite s r q g (writeData s)) := by
  simp only [exec, execLdg, h]

/-- The checks of LDG after the index, on the fields of the sampled write data. -/
theorem groupWriteError_of_lt (hg : g < s.cfg.gcnt q) : groupWriteError s.cfg q g (writeData s) =
    if ∃ o < s.cfg.DPG, 10 ≤ extractField s.wdata o then some .digitOutOfRange
    else if ∃ o < s.cfg.DPG, s.cfg.cnt q ≤ g * s.cfg.DPG + o ∧ extractField s.wdata o ≠ 0 then some .indexOutOfRange
    else none := by
  have hne : ¬ s.cfg.gcnt q ≤ g := Nat.not_le.mpr hg
  simp only [groupWriteError, hne, if_false, hasBadDigit_writeData_iff, hasNonzeroSpare_writeData_iff]

end

theorem not_exists_bad_digit {w : Word} {n : Nat} (h : ∀ o < n, extractField w o ≤ 9) :
    ¬ ∃ o < n, 10 ≤ extractField w o :=
  fun ⟨o, ho, hbad⟩ => absurd (h o ho) (Nat.not_le.mpr hbad)

/-- Settles O36: the verdict on the write takes the checks in this order. -/
theorem ldgChecksIndexThenDigitsThenSpares : Obligations.LdgChecksIndexThenDigitsThenSpares := by
  unfold Obligations.LdgChecksIndexThenDigitsThenSpares
  intro s r q g
  refine ⟨fun hg => ?_, fun hg hbad => ?_, fun hg hdigits hspare => ?_⟩
  · have herror : groupWriteError s.cfg q g (writeData s) = some .indexOutOfRange := if_pos hg
    exact (exec_ldg_of_error r herror).trans (raise_eq _ s)
  · have herror := (groupWriteError_of_lt hg).trans (if_pos hbad)
    exact (exec_ldg_of_error r herror).trans (raise_eq _ s)
  · have hgood := not_exists_bad_digit hdigits
    have herror := (groupWriteError_of_lt hg).trans ((if_neg hgood).trans (if_pos hspare))
    exact (exec_ldg_of_error r herror).trans (raise_eq _ s)

/-- A group write leaves every other group of its register (R52). -/
theorem groupRead_groupWrite_other {s : State} (hs : s.wf) (r : RegNum) {q q' : Seq} {g g' : Nat}
    (hg : g < s.cfg.gcnt q) (hne : ¬ (q' = q ∧ g' = g)) (w : Word) :
    groupRead (groupWrite s r q g w) r q' g' = groupRead s r q' g' := by
  rw [groupRead, groupWrite_reg, if_pos rfl, group_setGroup _ _ _ _ _ _ (lt_length_seq_of_wf hs r hg), if_neg hne]
  rfl

/-- Settles O35: the verdict lets legal data pass, and the group written holds the fields on the wires. -/
theorem ldgWritesALegalGroup : Obligations.LdgWritesALegalGroup := by
  unfold Obligations.LdgWritesALegalGroup
  intro s r q g hs hg hdigits hspares
  have hgood := not_exists_bad_digit hdigits
  have hclear : ¬ ∃ o < s.cfg.DPG, s.cfg.cnt q ≤ g * s.cfg.DPG + o ∧ extractField s.wdata o ≠ 0 :=
    fun ⟨o, ho, hspare, hne⟩ => hne (hspares o ho hspare)
  have hnone := (groupWriteError_of_lt hg).trans ((if_neg hgood).trans (if_neg hclear))
  refine ⟨_, ⟨(exec_ldg_of_legal r hnone).trans (respondOk_eq _), rfl⟩, onlyReg_setReg s r _ _, ?_, fun o _ => ?_,
    fun q' g' hne => groupRead_groupWrite_other hs r hg hne _⟩
  · rw [withRsp_reg, groupWrite_reg, if_pos rfl, setGroup_sign]
  · rw [← extractField_writeData]
    exact congrArg (extractField · o) (groupRead_groupWrite_same hs r hg _)

theorem exec_rdg_of_lt {s : State} {q : Seq} {g : Nat} (r : RegNum) (hg : g < s.cfg.gcnt q) :
    exec (.rdg r q g) s = respond .ok (groupRead s r q g) s := if_neg (Nat.not_le.mpr hg)

/-- Settles O37, by the two branches of RDG. -/
theorem rdgReadsAnExistingGroup : Obligations.RdgReadsAnExistingGroup := by
  unfold Obligations.RdgReadsAnExistingGroup
  intro s r q g
  refine ⟨fun hg => ?_, fun hg => ?_⟩
  · exact (exec_rdg_of_lt r hg).trans (respond_eq .ok _ s)
  · exact (if_pos hg).trans (raise_eq .indexOutOfRange s)

/-- An LDG that ran found its group and wrote the wires to it. -/
theorem eq_of_runsOk_ldg {s t : State} {r : RegNum} {q : Seq} {g : Nat} (h : runsOk (.ldg r q g) s t) :
    g < s.cfg.gcnt q ∧ t = { groupWrite s r q g (writeData s) with rsp := some ⟨.ok, 0#64⟩ } := by
  cases he : groupWriteError s.cfg q g (writeData s) with
  | some e =>
    have hfails := (exec_ldg_of_error r he).trans (raise_eq e s)
    exact absurd hfails (not_failsWith_of_runsOk h (groupWriteError_ne_ok s.cfg q g _ e he))
  | none =>
    obtain ⟨hg, _⟩ := (groupWriteError_eq_none s q g).mp he
    exact ⟨hg, eq_of_runsOk h ((exec_ldg_of_legal r he).trans (respondOk_eq _))⟩

/-- Settles O38: the group written holds the wires, and RDG answers the whole group. -/
theorem rdgReadsBackWhatLdgWrote : Obligations.RdgReadsBackWhatLdgWrote := by
  unfold Obligations.RdgReadsBackWhatLdgWrote
  intro s t r q g hs hrun
  obtain ⟨hg, ht⟩ := eq_of_runsOk_ldg hrun
  have hgroup : groupRead t r q g = writeData s := by
    rw [ht]
    exact groupRead_groupWrite_same hs r hg _
  have hexists : g < t.cfg.gcnt q := by
    rw [ht]
    exact hg
  rw [exec_rdg_of_lt r hexists, hgroup]
  exact respond_eq .ok (writeData s) t

/-! ## Whole registers: CLR and MOV (R120, R121) -/

/-- Settles O39: the register holds the default-constructed value, whose groups and magnitude are 0. -/
theorem clrGivesTheResetValue : Obligations.ClrGivesTheResetValue := by
  unfold Obligations.ClrGivesTheResetValue
  intro s r _
  have hreg : (s.setReg r (DReg.zero s.cfg)).reg r = DReg.zero s.cfg := reg_setReg_same s r _
  refine ⟨{ s.setReg r (DReg.zero s.cfg) with rsp := some ⟨.ok, 0#64⟩ }, ⟨respondOk_eq _, rfl⟩, onlyReg_setReg s r _ _,
    ?_, ?_, ?_, fun q g _ => ?_⟩
  · rw [withRsp_reg, hreg, resetFor_reg]
  · rw [mag, withRsp_reg, hreg]
    exact mag_zero s.cfg
  · rw [withRsp_reg, hreg, zero_sign]
  · rw [groupRead, withRsp_reg, hreg, group_zero]

/-- The comparator finds no differing digit between a register and itself. -/
theorem magOrdering_self (a : Nat → Nat) (n : Nat) : magOrdering a a n = .eq := by
  induction n with
  | zero => rfl
  | succ n ih => rw [magOrdering, if_pos rfl, ih]

/-- CMP finds registers with the same contents equal, whatever they hold (R175). -/
theorem cmp_reads_zero_of_reg_eq {s : State} {ra rb : RegNum} (h : s.reg rb = s.reg ra) :
    readsNat (.cmp ra rb) s 0 := by
  have hcomb : combRead s rb = combRead s ra := by funext k; rw [combRead, h, combRead]
  have hneg : effectivelyNegative s rb = effectivelyNegative s ra := by
    rw [effectivelyNegative, signRead, isZero, h, effectivelyNegative, signRead, isZero]
  have hsigned (b : Bool) : signedOrdering b b .eq = .eq := by cases b <;> rfl
  simp only [readsNat, exec, execCmp, hcomb, hneg, magOrdering_self, hsigned]
  exact respondNat_eq 0 s

/-- Settles O40: the destination holds what the source holds, also where they are one register. -/
theorem movCopiesAValueThatComparesEqual : Obligations.MovCopiesAValueThatComparesEqual := by
  unfold Obligations.MovCopiesAValueThatComparesEqual
  intro s rd ra
  have hd : (s.setReg rd (s.reg ra)).reg rd = s.reg ra := reg_setReg_same s rd _
  have ha : (s.setReg rd (s.reg ra)).reg ra = s.reg ra := by rw [reg_setReg, ite_self]
  exact ⟨{ s.setReg rd (s.reg ra) with rsp := some ⟨.ok, 0#64⟩ }, ⟨respondOk_eq _, rfl⟩, hd, ha, onlyReg_setReg s rd _ _,
    cmp_reads_zero_of_reg_eq (ha.trans hd.symm)⟩

/-! ## Signed digit indices: IGET and ISET (R122, R123) -/

theorem signedPosition_of_nonneg {c : Config} {x : Int} (hx : 0 ≤ x) (hlt : x < c.ID) :
    signedPosition c x = some (.I, x.toNat) := by
  rw [signedPosition, if_pos hx, if_neg (Int.not_le.mpr hlt)]

theorem signedPosition_of_neg {c : Config} {x : Int} (hx : x < 0) (hle : -(c.FD : Int) ≤ x) :
    signedPosition c x = some (.F, ((c.FD : Int) + x).toNat) := by
  rw [signedPosition, if_neg (Int.not_le.mpr hx), if_neg (Int.not_lt.mpr hle)]

theorem iget_reads {s : State} {x : Int} {q : Seq} {p : Nat} (r : RegNum) (h : signedPosition s.cfg x = some (q, p)) :
    readsNat (.iget r x) s (digitRead s r q p) := by
  simp only [readsNat, exec, execIget, h]
  exact respondNat_eq _ s

/-- Settles O41: an index leads to its position or to none. -/
theorem igetReadsBySignedIndex : Obligations.IgetReadsBySignedIndex := by
  unfold Obligations.IgetReadsBySignedIndex
  intro s r x
  refine ⟨fun hx hlt => iget_reads r (signedPosition_of_nonneg hx hlt),
    fun hx hle => iget_reads r (signedPosition_of_neg hx hle), fun hout => ?_⟩
  simp only [failsWith, exec, execIget, (signedPosition_eq_none s.cfg x).mpr hout]
  exact raise_eq _ s

/-- At the position its index names, ISET checks and writes as DSET does. -/
theorem exec_iset_eq_exec_dset {s : State} {x : Int} {q : Seq} {p : Nat} (r : RegNum) (v : Nat)
    (h : signedPosition s.cfg x = some (q, p)) : exec (.iset r x v) s = exec (.dset r q p v) s := by
  obtain ⟨hp, _⟩ := signedPosition_eq_some s.cfg x q p h
  simp only [exec, execIset, execDset, h, digitWriteError_of_lt hp]
  split <;> rfl

theorem exec_iset_of_none {s : State} {x : Int} (r : RegNum) (v : Nat) (h : signedPosition s.cfg x = none) :
    exec (.iset r x v) s = raise .indexOutOfRange s := by
  simp only [exec, execIset, h]

/-- Settles O42: ISET is DSET at the position the index names. -/
theorem isetWritesBySignedIndex : Obligations.IsetWritesBySignedIndex := by
  unfold Obligations.IsetWritesBySignedIndex
  intro s r x v q p hs hv hindex
  have hpos : signedPosition s.cfg x = some (q, p) := by
    obtain ⟨rfl, hx, hlt, rfl⟩ | ⟨rfl, hx, hle, hp⟩ := hindex
    · exact signedPosition_of_nonneg hx hlt
    · rw [signedPosition_of_neg hx hle, hp, Int.toNat_natCast]
  obtain ⟨hp, _⟩ := signedPosition_eq_some s.cfg x q p hpos
  exact runsOk_of_digitWrite hs hp hv ((exec_iset_eq_exec_dset r v hpos).trans (exec_dset_of_legal r hp hv))

/-- Settles O43: where the index names a position ISET is DSET there; DSET refuses an integer position past the end as
ISET refuses its index. -/
theorem isetIsDsetAtItsPosition : Obligations.IsetIsDsetAtItsPosition := by
  unfold Obligations.IsetIsDsetAtItsPosition
  intro s r x v
  refine ⟨fun hx => ?_, fun hx hle => exec_iset_eq_exec_dset r v (signedPosition_of_neg hx hle), fun hout => ?_,
    fun hle hlt hv => ?_⟩
  · rcases lt_or_ge x s.cfg.ID with hlt | hge
    · exact exec_iset_eq_exec_dset r v (signedPosition_of_nonneg hx hlt)
    · have hnone := (signedPosition_eq_none s.cfg x).mpr (.inl hge)
      have hpast : s.cfg.cnt .I ≤ x.toNat := (Int.le_toNat hx).mpr hge
      rw [exec_iset_of_none r v hnone, exec_dset_of_error r (digitWriteError_of_le hpast v)]
  · exact (exec_iset_of_none r v ((signedPosition_eq_none s.cfg x).mpr hout)).trans (raise_eq _ s)
  · cases hpos : signedPosition s.cfg x with
    | none =>
      have hout := (signedPosition_eq_none s.cfg x).mp hpos
      omega
    | some qp =>
      obtain ⟨q, p⟩ := qp
      obtain ⟨hp, _⟩ := signedPosition_eq_some s.cfg x q p hpos
      obtain ⟨_, hdset⟩ := dsetChecksTheAddressFirst s r q p v
      exact (exec_iset_eq_exec_dset r v hpos).trans (hdset hp hv)

/-! ## The sign flag: SSET and SGET (R124, R125) -/

/-- Settles O44: the record update of the sign leaves both sequences. -/
theorem ssetWritesTheSignAlone : Obligations.SsetWritesTheSignAlone := by
  unfold Obligations.SsetWritesTheSignAlone
  intro s r b
  have hreg : (signWrite s r b).reg r = { s.reg r with sign := b } := reg_setReg_same s r _
  refine ⟨{ signWrite s r b with rsp := some ⟨.ok, 0#64⟩ }, ⟨respondOk_eq _, rfl⟩, onlyReg_setReg s r _ _, ?_, ?_, ?_⟩
  · rw [withRsp_reg, hreg]
  · rw [withRsp_reg, hreg]
  · rw [withRsp_reg, hreg]

/-- Settles O45: SGET reports the stored flag as a number. -/
theorem sgetReadsTheSign : Obligations.SgetReadsTheSign := by
  unfold Obligations.SgetReadsTheSign
  exact fun s r => respondNat_eq (signNat (signRead s r)) s

end Sys2Proof.Machine
end
